-- ==== Sys2Proof/Word.lean ====
section
/-! DEFINITION. The carrier of the machine the host runs, 32-bit words (R58; log 4), and the phase code. -/

namespace Sys2Proof

/-- A sample, window coefficient, spectrum component or twiddle entry of the machine the host runs: 32 bits.
DESIGN CHOICE (log 4): the block is modelled over any carrier `V` (R10); the host's interface needs one machine, whose carrier
is the one of the recommended configuration, IEEE 754 binary32 (D1). -/
abbrev Sample := BitVec 32

/-- The 4-bit code held in `PHASE` (R19, R51). -/
abbrev PhaseCode := BitVec 4

end Sys2Proof
end

