-- ==== Sys2Proof/Config.lean ====
section
/-! DEFINITION. What an implementation of the block fixes, the constants the source fixes (R8), and the
free values (constants with no body, of which nothing can be proved but their type). -/

namespace Sys2Proof

/-- The arithmetic configuration of R10: a carrier `V` and the operations every numeric rule names.
`gt` is strictly greater; `wcoef N i` is window coefficient `i` for frame size `N`. -/
structure Arith (V : Type) where
  zero   : V
  mul    : V → V → V
  add    : V → V → V
  sqrt   : V → V
  gt     : V → V → Bool
  finite : V → Bool
  wcoef  : Nat → Nat → V
  deriving Inhabited

/-- The transform collaborator of R74: `init n` is `XfInit(n)`, and `run tw x k` is entry `k` of
`Xf(tw, x)`, a pair (real part, imaginary part). It is a function of its arguments alone (`XF_PURE`)
and total (`XF_TOTAL`); the machine reads entries `0 .. N-1` and no other (`XF_SHAPE`).
The coefficient table has no structure the spec knows of (R29); here it is a list of values. A Lean function has a
value everywhere, `XF_TOTAL` covers only `XfInit(n)` for a power of two `n ≥ 2` and `Xf(XfInit(N), x)` for a frame `x` of `N`
finite values: of what a transform answers elsewhere the spec says nothing, and no statement does (log 7). -/
structure Transform (V : Type) where
  init : Nat → List V
  run  : List V → List V → Nat → V × V
  deriving Inhabited

namespace Config

/-- The lower band threshold, hertz (R8). -/
def loHz : Nat := 500

/-- The upper band threshold, hertz (R8). -/
def hiHz : Nat := 2000

/-- The frame size of this hardware (R6, R12). -/
def refN : Nat := 1024

/-- The reference sample rate (R7, R12); the source fixes no value. -/
def refFs : Nat := 44100

/-- The reference Sample Source length (R7, R12); the source fixes no value. -/
def refL : Nat := 44100

/-- FREE VALUE (log 4). The arithmetic configurations a realisation may have other than binary32, one
for each number: R10 leaves the format, the rounding and the evaluation open (OPEN in D1). -/
opaque otherArith : Nat → Arith Sample

/-- FREE VALUE (log 7). The transforms a realisation may have other than the reference transform, one
for each number: R4 and R74 leave the transform open (OPEN in D16). -/
opaque otherTransform : Nat → Transform Sample

/-- FREE VALUE (log 12). The window coefficient where the formula of R64 has no value, of the real numbers and of binary32:
a frame size below 2, whose divisor `N - 1` is zero. `CFGCHK` keeps `WINIT` from it. -/
opaque wcoefNoValue {V : Type} [Inhabited V] (n i : Nat) : V

/-- FREE VALUE (log 24). The least bin at or above the threshold `t` hertz for frame size `n` at `FS = 0`, where R87 defines
none. No step reads it. -/
opaque thresholdBinNoValue (t n : Nat) : Nat

/-- FREE VALUE (log 11). The remainder of a division by zero: "`mod L` has no value when `L = 0`" (R108). -/
opaque modByZero : Nat → Nat

/-- FREE VALUE (log 7). `XfInit(n)` of the reference transform where `XF_TOTAL` defines none: `n` below 2 or no power of
two (R74). `CFGCHK` keeps `XINIT` from it. -/
opaque xfInitOutside : Nat → List Sample

/-- FREE VALUE (log 7). Entry `k` of the reference transform of `x` with the table `tw` outside the transform's contract:
`x` holds a value that is not finite (R73), or `tw` is not `XfInit(N)` for the `N` of `x` (`XF_TOTAL`, R74). -/
opaque xfOutside : (tw x : List Sample) → (k : Nat) → Sample × Sample

/-- FREE VALUE (log 16). The element read at an index beyond a buffer's end, for each carrier. No operation forms such an
index (R45) in a state whose buffers have their `N` elements. -/
opaque beyondBuffer {V : Type} [Inhabited V] (i : Nat) : V

/-- FREE VALUE (log 14). The pacing interval `T_PACE` of R11, in a unit of the realisation's own; "no rule of
the model reads" it, and none does. -/
opaque tPace : Nat

end Config

end Sys2Proof
end

