-- ==== Sys2Proof/Syntax.lean ====
section
/-! DEFINITION. The twelve operations of the block (R51, spec/opcode_table.json). -/

namespace Sys2Proof

/-- One constructor per row of the operation table of R51. No operation has an operand (R53). This is
the twelve-constructor phase type of R52: it has no reserved value. -/
inductive Instr where
  /-- `0x0`: check the configuration; halt on error (R94). -/
  | cfgchk
  /-- `0x1`: compute the `N` window coefficients (R65). -/
  | winit
  /-- `0x2`: have the transform derive its coefficient table (R72). -/
  | xinit
  /-- `0x3`: read `N` samples from the cursor, circularly (R95). -/
  | fetch
  /-- `0x4`: advance the cursor by `N` modulo `L` (R96). -/
  | adv
  /-- `0x5`: multiply the frame by the window, element by element (R66). -/
  | window
  /-- `0x6`: transform the frame into the spectrum (R73). -/
  | xform
  /-- `0x7`: find the bin of maximum magnitude (R78). -/
  | peak
  /-- `0x8`: map the peak bin to a Band (R84). -/
  | map
  /-- `0x9`: drive the Band onto the indicator lines (R102). -/
  | emit
  /-- `0xA`: wait one pacing interval (R103). -/
  | pace
  /-- `0xF`: stay halted after a configuration error (R104). -/
  | halt
  deriving DecidableEq, Repr

/-- The twelve operations in the order of R51. -/
def Instr.all : List Instr :=
  [.cfgchk, .winit, .xinit, .fetch, .adv, .window, .xform, .peak, .map, .emit, .pace, .halt]

end Sys2Proof
end

