-- ==== Sys2Proof/WellFormed.lean ====
section
/-! DEFINITION. Which raw codes and instructions are well formed (R51, R52, R54 to R56, R62). -/

namespace Sys2Proof

/-- Every term of `Instr` is well formed: no operation has an operand field, a register field or an
immediate (R53), so there is nothing to check. -/
def Instr.wf : Instr → Bool
  | .cfgchk | .winit | .xinit | .fetch | .adv | .window
  | .xform | .peak | .map | .emit | .pace | .halt => true

/-- The twelve phase codes of R51; `0xB` to `0xE` are reserved (R52). -/
def phaseCodeWf (c : PhaseCode) : Bool :=
  decide (c.toNat ≤ 10) || decide (c.toNat = 15)

/-- The three Band codes of R54; `0b11` is not a Band. -/
def bandCodeWf (c : BitVec 2) : Bool :=
  decide (c.toNat ≤ 2)

/-- The five causes of R56; `5` to `7` are reserved and never written. -/
def causeCodeWf (c : BitVec 3) : Bool :=
  decide (c.toNat ≤ 4)

/-- The four legal values of the indicator lines (R24, R55): none asserted, or exactly one. -/
def indWf (c : BitVec 3) : Bool :=
  c == 0b000#3 || c == 0b001#3 || c == 0b010#3 || c == 0b100#3

end Sys2Proof
end

