-- ==== Sys2Proof/Decode.lean ====
section
/-! DEFINITION. The decoder and the encoder of phase codes (R51, R52, R62). -/

namespace Sys2Proof

/-- Why a raw phase value names no operation. -/
inductive DecodeError where
  /-- One of `0xB` to `0xE`: "invalid" (R52, R62). -/
  | reservedCode (c : PhaseCode)
  deriving DecidableEq, Repr

/-- The decoder from raw 4-bit values: total, reads nothing but the four bits (R62). -/
def decode (c : PhaseCode) : Except DecodeError Instr :=
  match c.toNat with
  | 0x0 => .ok .cfgchk
  | 0x1 => .ok .winit
  | 0x2 => .ok .xinit
  | 0x3 => .ok .fetch
  | 0x4 => .ok .adv
  | 0x5 => .ok .window
  | 0x6 => .ok .xform
  | 0x7 => .ok .peak
  | 0x8 => .ok .map
  | 0x9 => .ok .emit
  | 0xA => .ok .pace
  | 0xF => .ok .halt
  | _   => .error (.reservedCode c)

/-- The code of an operation, from the column "bits `[3:0]`" of R51. -/
def encode : Instr → PhaseCode
  | .cfgchk => 0b0000#4
  | .winit  => 0b0001#4
  | .xinit  => 0b0010#4
  | .fetch  => 0b0011#4
  | .adv    => 0b0100#4
  | .window => 0b0101#4
  | .xform  => 0b0110#4
  | .peak   => 0b0111#4
  | .map    => 0b1000#4
  | .emit   => 0b1001#4
  | .pace   => 0b1010#4
  | .halt   => 0b1111#4

/-- The decoder on a row's bits as the host numbers them (log 19): `nbits` bits, whose value is `w`. A phase
code is the four low bits and every bit above them is 0; anything else is refused. -/
def decodeTableWord (nbits w : Nat) : Option Instr :=
  let v := w % 2 ^ nbits
  if v < 16 then (decode (BitVec.ofNat 4 v)).toOption else none

end Sys2Proof
end

