-- ==== Sys2Proof/Machine/State.lean ====
section
/-! DEFINITION. The state of the block (R17) over any carrier `V` (R10), its parameters held as plain data (R25, R33;
log 1), the reset state (R35), the reasons a step can stop, and the state of the machine the host runs, whose carrier is
the 32-bit word (log 4). -/

namespace Sys2Proof.Machine

/-- The Band, "an enumerated value {Low, Mid, High}" (R21, R54). -/
inductive Band where
  | low
  | mid
  | high
  deriving DecidableEq, Repr

/-- The configuration errors of R108, in the order of their codes `1 .. 4` (R56). -/
inductive ConfigError where
  /-- `CFG_N_NOT_POW2`: the frame size is not a power of two. -/
  | nNotPow2
  /-- `CFG_TABLE_MISMATCH`: the transform's table is built for another length. -/
  | tableMismatch
  /-- `CFG_DEGENERATE_BANDS`: some Band has no bin. -/
  | degenerateBands
  /-- `CFG_EMPTY_SOURCE`: the Sample Source has no sample. -/
  | emptySource
  deriving DecidableEq, Repr

/-- Which arithmetic configuration the block has (R10; log 4): the recommended one (D1), or another. -/
inductive ArithSel where
  | recommended
  | other (id : Nat)
  deriving DecidableEq, Repr

/-- Which transform the platform supplies (R74; log 7): the reference transform of R75, or another. -/
inductive TransformSel where
  | reference
  | other (id : Nat)
  deriving DecidableEq, Repr

/-- The Sample Source `SRC` (R37): the listed samples by element address; an unlisted address reads as
`Memory.unlisted`. The canonical form is `Memory.wf`. -/
abbrev Memory (V : Type) := List (Nat × V)

/-- The transform's coefficient table, opaque to the block (R29; log 17). -/
abbrev Tw (V : Type) := List V

/-- The parameters of the block (R12, R25, R33): no operation writes them, and a reset takes the ones the platform then
presents: `N`, `XF_N`, `FS`, `L` and `SRC` by R121; that it takes the arithmetic and the transform then present too is a
DESIGN CHOICE (log 1). They stand in `State` because the step takes no other argument (log 1). -/
structure Platform (V : Type) where
  /-- `N`, the frame size (R6). -/
  n     : Nat
  /-- `XF_N`, the length the transform's table is built for (R9). -/
  xfN   : Nat
  /-- `FS`, the sample rate in hertz (R7). -/
  fs    : Nat
  /-- `L`, the length of the Sample Source (R7). -/
  l     : Nat
  /-- `SRC`, the contents of the Sample Source (R37). -/
  src   : Memory V
  /-- `Arith` (R10). -/
  arith : ArithSel
  /-- `Xf` and `XfInit` (R74). -/
  xf    : TransformSel
  deriving DecidableEq, Repr

/-- What the host does at one step (log 13): nothing, so that the block performs its operation; a reset (R119), after which the
configuration inputs and `SRC` are "whatever the platform presents after the reset" (R121), here those of the platform `p`; or a
power-off (R128). R121 says it of the configuration inputs and `SRC` and of nothing else: that a reset may also replace the
arithmetic and the transform by the ones of `p` is a DESIGN CHOICE (log 1). -/
inductive HostAction (V : Type) where
  | run
  | reset (p : Platform V)
  | powerOff
  deriving DecidableEq, Repr

/-- The "written" marks of R30: which storages hold a value since the last reset. All clear says what R35 says
of them after reset, "no value". -/
structure Written where
  win   : Bool
  tw    : Bool
  frame : Bool
  spec  : Bool
  kstar : Bool
  band  : Bool
  deriving DecidableEq, Repr

/-- No storage holds a value (R35). -/
def Written.none : Written := ⟨false, false, false, false, false, false⟩

/-- Why the machine stops. All three are safe: the model stops where hardware might go on. -/
inductive Fault where
  /-- Raised by the step when `PHASE` holds a reserved code, which no step produces: the model "gives such a state
  no step" (R52, U7; log 9). Safe. -/
  | reservedPhase
  /-- Raised by `FETCH` when it forms the address of an element the Sample Source does not have, which takes
  `L = 0` (R37, R40; log 11). `CFGCHK` keeps every run from it. Safe. -/
  | noSuchElement
  /-- Raised by the step when the host switches the power off: "the end of observation" (R128; log 13). Safe. -/
  | poweredOff
  deriving DecidableEq, Repr

/-- Why the model gives an operation no meaning. -/
inductive Refusal where
  /-- An operation rejected by name. No operation of this model is. -/
  | notModelled (mnemonic : String)
  /-- Raised by `PEAK` when the premise `FINITE_SPECTRUM` fails: the model "refuses a `PEAK` step whose premise fails; it
  must not pick a value" (R91, U4; log 8). Safe. -/
  | nonFiniteSpectrum
  deriving DecidableEq, Repr

end Sys2Proof.Machine

namespace Sys2Proof.Block

open Sys2Proof.Machine

/-- The complete architectural state (R17) over the carrier `V`, with the parameters and the pending host actions beside
it. -/
structure State (V : Type) where
  /-- `CURSOR`, the Read Cursor (R18). -/
  cursor   : Nat
  /-- `PHASE`, the 4-bit code of the operation performed next (R19). -/
  phase    : PhaseCode
  /-- `BAND` (R21). -/
  band     : Band
  /-- `KSTAR`, the peak bin index (R22). -/
  kstar    : Nat
  /-- `FAULT`, the configuration-error flag (R23). -/
  fault    : Bool
  /-- `CAUSE`, which configuration error (R23, R56). -/
  cause    : BitVec 3
  /-- `IND[2:0]`, the indicator lines (R24). -/
  ind      : BitVec 3
  /-- `WIN`, the window coefficients (R26). -/
  win      : List V
  /-- `FRAME`, raw after `FETCH`, windowed after `WINDOW` (R27). -/
  frame    : List V
  /-- `SPEC_RE`, the real parts of the Spectrum (R28). -/
  specRe   : List V
  /-- `SPEC_IM`, the imaginary parts of the Spectrum (R28). -/
  specIm   : List V
  /-- `TW`, the transform's coefficient table (R29). -/
  tw       : Tw V
  /-- Which storages hold a value since reset (R30). -/
  written  : Written
  /-- The parameters (R33). -/
  platform : Platform V
  /-- The MODEL's own field: what the host does at the coming steps, first at the head; none listed is nothing
  pending (log 13). -/
  host     : List (HostAction V)
  deriving DecidableEq, Repr

/-- What a machine over the carrier `V` takes as its arithmetic and its transform: the records the selectors of its platforms
name (R10, R33, R74). -/
structure Numerics (V : Type) where
  arith     : ArithSel → Arith V
  transform : TransformSel → Transform V

/-- The state right after a reset, on the platform `p`, with `h` still pending from the host (R35, R119, R121).
Where R35 says "no value" the storage is not marked written; what it then holds is a DESIGN CHOICE (log 3): `default`, which for
words is the zero word and for real numbers is zero. -/
def State.afterReset {V : Type} [Inhabited V] (p : Platform V) (h : List (HostAction V)) : State V where
  cursor   := 0
  phase    := 0x0#4
  band     := .low
  kstar    := 0
  fault    := false
  cause    := 0#3
  ind      := 0b000#3
  win      := List.replicate p.n default
  frame    := List.replicate p.n default
  specRe   := List.replicate p.n default
  specIm   := List.replicate p.n default
  tw       := []
  written  := Written.none
  platform := p
  host     := h

end Sys2Proof.Block

namespace Sys2Proof.Machine

/-- The state of the machine the host runs: the block over 32-bit words (log 4). -/
abbrev State := Block.State Sample

/-- The state right after a reset, on the platform `p`, with `h` still pending from the host (R35, R119, R121). -/
abbrev State.afterReset (p : Platform Sample) (h : List (HostAction Sample)) : State := Block.State.afterReset p h

/-- The reference configuration of R12, with a Sample Source that lists nothing, the recommended arithmetic (D1) and
the reference transform (R75). DESIGN CHOICE (log 2): R12 leaves `FS`, `L`, `SRC`, `Arith` and `Xf` open. -/
def Platform.reference : Platform Sample where
  n     := Config.refN
  xfN   := Config.refN
  fs    := Config.refFs
  l     := Config.refL
  src   := []
  arith := .recommended
  xf    := .reference

/-- The machine right after reset (R35) on the reference platform. -/
def State.reset : State := State.afterReset Platform.reference []

end Sys2Proof.Machine
end

