-- ==== Sys2Proof/Machine/Flags.lean ====
section
/-! DEFINITION. The codes of the Band, the indicator lines and the fault cause (R54 to R56), and the computation of
`FAULT` and `CAUSE`: the conditions of a configuration error and their priority (R107, R108, R110). -/

namespace Sys2Proof.Machine

/-- The 2-bit code in `BAND` (R54). -/
def bandCode : Band → BitVec 2
  | .low  => 0b00#2
  | .mid  => 0b01#2
  | .high => 0b10#2

/-- The decoder of raw Band values; `0b11` is invalid (R62). -/
def bandOfCode (c : BitVec 2) : Option Band :=
  match c.toNat with
  | 0 => some .low
  | 1 => some .mid
  | 2 => some .high
  | _ => none

/-- The indicator lines with the one line of the Band asserted (R55). -/
def onehot : Band → BitVec 3
  | .low  => 0b001#3
  | .mid  => 0b010#3
  | .high => 0b100#3

/-- The 3-bit code in `CAUSE`; `0` is `NONE`, no configuration error found (R56). -/
def causeCode : Option ConfigError → BitVec 3
  | none                  => 0#3
  | some .nNotPow2        => 1#3
  | some .tableMismatch   => 2#3
  | some .degenerateBands => 3#3
  | some .emptySource     => 4#3

/-- The decoder of raw causes: one of the five named ones, or nothing for `5` to `7` (R62). -/
def causeOfCode (c : BitVec 3) : Option (Option ConfigError) :=
  match c.toNat with
  | 0 => some none
  | 1 => some (some .nNotPow2)
  | 2 => some (some .tableMismatch)
  | 3 => some (some .degenerateBands)
  | 4 => some (some .emptySource)
  | _ => none

/-- `IsPow2(N)`: `N = 2^m` for some `m ≥ 0` (R108), tested at the one `m` it can be. -/
def isPow2 (n : Nat) : Bool := decide (2 ^ n.log2 = n)

/-- Whether one of the `c` bins from `k` on satisfies `p`. -/
def anyBin (p : Nat → Bool) : Nat → Nat → Bool
  | 0, _ => false
  | c + 1, k => p k || anyBin p c (k + 1)

/-- `HasMid(FS, N)`: some scanned bin lies in the Mid band (R107). For an odd `N`, which `CFGCHK` rejects before it looks at the
bins, the scanned bins are those of the floor of `N/2` (log 16). -/
def hasMid (fs n : Nat) : Bool :=
  anyBin (fun k => decide (Config.loHz * n ≤ k * fs) && decide (k * fs < Config.hiHz * n)) (n / 2) 0

/-- `HasHigh(FS, N)`: some scanned bin lies in the High band (R107). -/
def hasHigh (fs n : Nat) : Bool :=
  anyBin (fun k => decide (Config.hiHz * n ≤ k * fs)) (n / 2) 0

/-- `Degenerate(FS, N)`: some Band can never be produced (R107). -/
def degenerate (fs n : Nat) : Bool := !hasMid fs n || !hasHigh fs n

/-- The configuration error `CFGCHK` finds, if any: the conditions in ascending code order, the first that holds
(R94, R108, R110). -/
def configError {V : Type} (p : Platform V) : Option ConfigError :=
  if !isPow2 p.n then some .nNotPow2
  else if p.xfN ≠ p.n then some .tableMismatch
  else if degenerate p.fs p.n then some .degenerateBands
  else if p.l = 0 then some .emptySource
  else none

end Sys2Proof.Machine
end

