-- ==== Sys2Proof/Machine/Binary32.lean ====
section
/-! DEFINITION. The recommended arithmetic of D1: IEEE 754 binary32, round to nearest even, one rounding per
operation (R10, R58; log 4, log 5), its window coefficients (R65; log 6), and the fixed-point cosine behind them.

Every finite binary32 value is a whole number of UNITS of `2^-149`, with a sign. The operations compute on those
whole numbers exactly and round once, in `roundPat`. -/

namespace Sys2Proof.Machine.Binary32

/-- Bits 30:0, the magnitude pattern. -/
def magPat (x : Sample) : Nat := x.toNat % 2 ^ 31

/-- The magnitude pattern of infinity: exponent all ones, fraction zero. -/
def infPat : Nat := 0x7F800000

/-- The not-a-number every invalid operation gives. PRESUMED (log 5): IEEE 754 leaves the payload open. -/
def qNaN : Sample := 0x7FC00000#32

def isNaN (x : Sample) : Bool := decide (infPat < magPat x)

def isInf (x : Sample) : Bool := decide (magPat x = infPat)

def finite (x : Sample) : Bool := decide (magPat x < infPat)

/-- The number of units of `2^-149` in a finite magnitude pattern: exponent field 30:23 (bias 127), fraction 22:0,
subnormal when the exponent field is zero (R58). -/
def units (p : Nat) : Nat :=
  if p < 2 ^ 23 then p else (p % 2 ^ 23 + 2 ^ 23) * 2 ^ (p / 2 ^ 23 - 1)

/-- The signed number of units in a finite value. -/
def value (x : Sample) : Int :=
  if x.msb then -(units (magPat x) : Int) else (units (magPat x) : Int)

/-- A sign and a magnitude pattern as a word. -/
def pack (neg : Bool) (pat : Nat) : Sample :=
  BitVec.ofNat 32 (if neg then pat + 2 ^ 31 else pat)

/-- The magnitude pattern nearest to `num / 2^d` units, ties to even, infinity past the largest finite value. `q` is
the exponent, in units, of the last place of a 24-bit significand. -/
def roundPat (num d : Nat) : Nat :=
  let q := num.log2 - (23 + d)
  let s := 2 ^ (q + d)
  let m := num / s
  let r := num % s
  let up := decide (s < 2 * r) || (decide (2 * r = s) && decide (m % 2 = 1))
  min (q * 2 ^ 23 + m + if up then 1 else 0) infPat

/-- The integer square root, one bit at a time from bit `b - 1` down: the largest `r + j`, `j < 2^b`, whose square
is at most `n`. -/
def isqrtFrom (n : Nat) : Nat → Nat → Nat
  | 0, r => r
  | b + 1, r => if (r + 2 ^ b) * (r + 2 ^ b) ≤ n then isqrtFrom n b (r + 2 ^ b) else isqrtFrom n b r

def isqrt (n : Nat) : Nat := isqrtFrom n (n.log2 / 2 + 1) 0

def mul (a b : Sample) : Sample :=
  let neg := a.msb != b.msb
  if isNaN a || isNaN b then qNaN
  else if isInf a || isInf b then
    if magPat a = 0 ∨ magPat b = 0 then qNaN else pack neg infPat
  else pack neg (roundPat (units (magPat a) * units (magPat b)) 149)

def add (a b : Sample) : Sample :=
  if isNaN a || isNaN b then qNaN
  else if isInf a then if isInf b && a.msb != b.msb then qNaN else a
  else if isInf b then b
  else
    let s := value a + value b
    if s = 0 then pack (a.msb && b.msb) 0 else pack (decide (s < 0)) (roundPat s.natAbs 0)

/-- The square root of `u` units is `√(u · 2^149)` units; the bit appended to the integer root says whether it was
exact, so that `roundPat` rounds the true root. -/
def sqrt (a : Sample) : Sample :=
  if isNaN a then qNaN
  else if magPat a = 0 then a
  else if a.msb then qNaN
  else if isInf a then a
  else
    let n := units (magPat a) * 2 ^ 149
    let r := isqrt n
    pack false (roundPat (2 * r + if r * r = n then 0 else 1) 1)

/-- The order of the non-NaN values as integers; both zeros are 0. -/
def key (x : Sample) : Int :=
  if x.msb then -(magPat x : Int) else (magPat x : Int)

/-- Strictly greater; false where an operand is not a number. -/
def gt (a b : Sample) : Bool :=
  !isNaN a && !isNaN b && decide (key b < key a)

/-! ## The cosine in fixed point -/

/-- The number of fraction bits of the fixed-point cosine (log 6). -/
def fracBits : Nat := 96

/-- `1` in fixed point. -/
def one : Nat := 2 ^ fracBits

/-- `π` in fixed point, rounded down. -/
def piFix : Nat := 248902613312231085230521944622

/-- `1 - x²/((2m-1)(2m)) · (1 - x²/((2m+1)(2m+2)) · …)`, `t` terms, for `x²` in fixed point: from `m = 1`, the
Taylor polynomial of the cosine in nested form. -/
def cosNest (x2 : Nat) : Nat → Nat → Nat
  | 0, _ => one
  | t + 1, m => one - x2 * cosNest x2 t (m + 1) / (one * ((2 * m - 1) * (2 * m)))

/-- `cos(2π · num / den)` for `4 · num < den`: an angle below a quarter turn. -/
def cosAcute (num den : Nat) : Nat :=
  let x := 2 * piFix * num / den
  cosNest (x * x / one) 16 1

/-- `cos(2π · num / den)` as a sign and a magnitude in fixed point: the angle is folded into the first quarter turn. -/
def cosTurn (num den : Nat) : Bool × Nat :=
  let u := num % den
  let t := min u (den - u)
  if 4 * t < den then (false, cosAcute t den)
  else if 4 * t = den then (false, 0)
  else (true, cosAcute (den - 2 * t) (2 * den))

/-- A signed fixed-point number rounded to binary32. -/
def ofFix (neg : Bool) (v : Nat) : Sample :=
  pack neg (roundPat (v * 2 ^ 149) fracBits)

/-- `0.54 - 0.46 · cos(2π·i/(N-1))` (R64) evaluated in fixed point and rounded once to binary32; a free value where
the formula has none (log 6, log 12). -/
def wcoef (n i : Nat) : Sample :=
  if n < 2 then Config.wcoefNoValue n i
  else
    match cosTurn i (n - 1) with
    | (true, c)  => ofFix false ((54 * one + 46 * c) / 100)
    | (false, c) => ofFix false ((54 * one - 46 * c) / 100)

/-- The recommended hardware instance of R10 (D1). -/
def arith : Arith Sample where
  zero   := 0x00000000#32
  mul    := mul
  add    := add
  sqrt   := sqrt
  gt     := gt
  finite := finite
  wcoef  := wcoef

end Sys2Proof.Machine.Binary32
end

