-- ==== Sys2Proof/Machine/ReferenceTransform.lean ====
section
/-! DEFINITION. The reference transform of R75 with `c = 1`, `s = -1`, computed in binary32: "a reference transform
used purely for verification" (R74; log 7). The block calls it as a function and depends on none of its arithmetic. What it
answers outside the contract of R74 is a free value. -/

namespace Sys2Proof.Machine.ReferenceTransform

/-- `cos(2π·m/n)` rounded to binary32. -/
def cosEntry (n m : Nat) : Sample :=
  let c := Binary32.cosTurn m n
  Binary32.ofFix c.1 c.2

/-- `sin(2π·m/n)`, which is the cosine of three quarters of a turn more. -/
def sinEntry (n m : Nat) : Sample :=
  cosEntry (4 * n) (4 * m + 3 * n)

/-- The lengths for which `XF_TOTAL` defines a table: the powers of two from 2 on (R74). -/
def lengthOk (n : Nat) : Bool := decide (2 ≤ n) && isPow2 n

/-- The table of length `n`: the `n` cosines, then the `n` sines. -/
def table (n : Nat) : List Sample :=
  (List.range n).map (cosEntry n) ++ (List.range n).map (sinEntry n)

/-- `XfInit(n)`: the table, on the lengths for which `XF_TOTAL` defines one; elsewhere, where the spec states no table, a
free value (DESIGN CHOICE, log 7). -/
def init (n : Nat) : List Sample :=
  if lengthOk n then table n else Config.xfInitOutside n

/-- The running sum over the frame `x` from index `i` on, each term `x[i]` times table entry `off + (k·i mod n)`;
`neg` says that the term enters with the opposite sign. A table for `n` lacks none of the entries asked for. -/
def dot (tw : Array Sample) (off n k : Nat) (neg : Bool) : List Sample → Nat → Sample → Sample
  | [], _, acc => acc
  | x :: xs, i, acc =>
    let c := tw.getD (off + k * i % n) 0#32
    let c := if neg then c ^^^ 0x80000000#32 else c
    dot tw off n k neg xs (i + 1) (Binary32.add acc (Binary32.mul x c))

/-- Whether the transform's contract covers the call `Xf(tw, x)`: `tw` is `XfInit(N)` for the `N` of `x`, a length for which
there is a table, and every value of `x` is finite (`XF_TOTAL`, R74; R73). -/
def covers (tw x : List Sample) : Bool :=
  lengthOk x.length && decide (tw = table x.length) && x.all Binary32.finite

/-- Entry `k` of the discrete Fourier transform of `x`: real part `Σ x[i]·cos(2π·k·i/n)`, imaginary part
`Σ x[i]·(-sin(2π·k·i/n))`, summed in ascending `i`. -/
def dft (tw x : List Sample) (k : Nat) : Sample × Sample :=
  let n := x.length
  let t := tw.toArray
  (dot t 0 n k false x 0 0#32, dot t n n k true x 0 0#32)

/-- `Xf(tw, x)`: the discrete Fourier transform where the contract covers the call; outside it, for example on a frame that
holds an infinity, a free value (DESIGN CHOICE, log 7). -/
def run (tw x : List Sample) (k : Nat) : Sample × Sample :=
  if covers tw x then dft tw x k else Config.xfOutside tw x k

def transform : Transform Sample where
  init := init
  run  := run

end Sys2Proof.Machine.ReferenceTransform
end

