-- ==== Sys2Proof/Machine/Operands.lean ====
section
/-! DEFINITION. Where operations find their operands: the parameters, the elements of a buffer, the circular
addressing mode, and the elements of the Sample Source. No operation has an operand field (R53). -/

namespace Sys2Proof.Machine

/-- The arithmetic configuration a selector names (R10; log 4). -/
def arithOf : ArithSel → Arith Sample
  | .recommended => Binary32.arith
  | .other id => Config.otherArith id

/-- The transform a selector names (R74; log 7). -/
def transformOf : TransformSel → Transform Sample
  | .reference => ReferenceTransform.transform
  | .other id  => Config.otherTransform id

/-- The arithmetic and the transform of the machine the host runs. -/
abbrev numerics : Block.Numerics Sample := ⟨arithOf, transformOf⟩

end Sys2Proof.Machine

namespace Sys2Proof.Block

/-- The arithmetic `Arith` of a block over words. -/
def State.arith (s : State Sample) : Arith Sample := Machine.arithOf s.platform.arith

/-- The transform `Xf`, `XfInit` of its platform. -/
def State.transform (s : State Sample) : Transform Sample := Machine.transformOf s.platform.xf

end Sys2Proof.Block

namespace Sys2Proof.Machine

section Elements

variable {V : Type} [Inhabited V]

/-- Element `i` of a buffer (R26 to R28). Beyond the buffer's end, where no operation indexes (R45), the element is a
free value (log 16). -/
def elem (buf : List V) (i : Nat) : V :=
  buf.getD i (Config.beyondBuffer i)

/-- Elements `i, i + 1, …` of a buffer whose elements from `i` on are listed, `c` of them. -/
def elemsFrom : Nat → Nat → List V → List V
  | 0, _, _ => []
  | c + 1, i, [] => Config.beyondBuffer i :: elemsFrom c (i + 1) []
  | c + 1, i, x :: xs => x :: elemsFrom c (i + 1) xs

/-- Elements `0 .. n-1` of a buffer, in ascending order. -/
def elems (n : Nat) (buf : List V) : List V := elemsFrom n 0 buf

end Elements

/-- `x mod L`, the mathematical remainder of an unbounded natural (R100); a free value where it has none (R108;
log 11). -/
def modL (l x : Nat) : Nat :=
  if l = 0 then Config.modByZero x else x % l

/-- The one addressing mode: `ea(i) = (CURSOR + i) mod L`, the sum formed in unbounded naturals and reduced once
(R40). -/
def ea (l cursor i : Nat) : Nat := modL l (cursor + i)

/-- The `N` element addresses of the frame that starts at the Read Cursor (R40, R95). -/
def frameAddrs {V : Type} (p : Platform V) (cursor : Nat) : List Nat :=
  (List.range p.n).map (ea p.l cursor)

/-- Whether the frame needs an element the Sample Source does not have. Element addresses are `0 .. L-1` (R37) and every
`ea(i)` is one of them when `L ≥ 1` (R40), so that takes a frame with an element and a source with none (log 11). -/
def frameMissing {V : Type} (p : Platform V) : Bool := decide (p.l = 0) && decide (p.n ≠ 0)

namespace Memory

variable {V : Type} [Inhabited V]

/-- What an element address that is not listed reads as: `default`, which for words is the zero word, silence. DESIGN CHOICE
(log 10). -/
def unlisted : V := default

/-- `MemRead(a, 1)`: the sample at element address `a` (R37, R42). It is the same value every time and reading it changes
nothing (R39). -/
def read : Memory V → Nat → V
  | [], _ => unlisted
  | (b, v) :: m, a => if a = b then v else read m a

/-- Every listed address is at least `lo`, addresses rise strictly, and no entry is what an unlisted address reads as. -/
def wfFrom [DecidableEq V] : Nat → Memory V → Bool
  | _, [] => true
  | lo, (a, v) :: m => decide (lo ≤ a) && !decide (v = unlisted) && wfFrom (a + 1) m

/-- The canonical form: equal tables are equal lists. -/
def wf [DecidableEq V] (m : Memory V) : Bool := wfFrom 0 m

/-- The table that holds the samples `xs` from element address `a` on: how a sample table, "a build-time artifact"
(R4), is put in place before the block runs. No operation of the block writes the Sample Source (R39). -/
def ofSamples [DecidableEq V] : Nat → List V → Memory V
  | _, [] => []
  | a, v :: xs => if v = unlisted then ofSamples (a + 1) xs else (a, v) :: ofSamples (a + 1) xs

end Memory

end Sys2Proof.Machine
end

