-- ==== Sys2Proof/Machine/Ops.lean ====
section
/-! DEFINITION. The named operations the meanings share: the writes of State, raising a configuration error and the
reset that alone leaves it, and the numeric operations of the stages, stated for any arithmetic (R10). -/

namespace Sys2Proof.Block

open Sys2Proof.Machine

variable {V : Type}

/-! ## Writes of State. A write of a storage marks it written (R30). -/

/-- `PHASE <- i` (R19, R92). -/
def State.setPhase (s : State V) (i : Instr) : State V := { s with phase := encode i }

/-- `CURSOR <- c` (R18). -/
def State.setCursor (s : State V) (c : Nat) : State V := { s with cursor := c }

/-- `BAND <- b` (R21). -/
def State.setBand (s : State V) (b : Band) : State V :=
  { s with band := b, written := { s.written with band := true } }

/-- `KSTAR <- k` (R22). -/
def State.setKstar (s : State V) (k : Nat) : State V :=
  { s with kstar := k, written := { s.written with kstar := true } }

/-- `FAULT <- 1; CAUSE <- c` (R23). -/
def State.setFault (s : State V) (c : BitVec 3) : State V := { s with fault := true, cause := c }

/-- `IND[2:0] <- v`, all three lines at once (R24). -/
def State.setInd (s : State V) (v : BitVec 3) : State V := { s with ind := v }

/-- Every element of `WIN` (R26). -/
def State.setWin (s : State V) (v : List V) : State V :=
  { s with win := v, written := { s.written with win := true } }

/-- Every element of `FRAME` (R27). -/
def State.setFrame (s : State V) (v : List V) : State V :=
  { s with frame := v, written := { s.written with frame := true } }

/-- Every element of `SPEC_RE` and `SPEC_IM` (R28). -/
def State.setSpec (s : State V) (re im : List V) : State V :=
  { s with specRe := re, specIm := im, written := { s.written with spec := true } }

/-- `TW` (R29). -/
def State.setTw (s : State V) (v : Tw V) : State V :=
  { s with tw := v, written := { s.written with tw := true } }

/-! ## The bins the classifier reads -/

/-- Bins `0 .. N/2-1` of the spectrum, the ones the classifier reads (R28, R78). For an even `N`, and every `N` that passes
`CFGCHK` is even, `N/2` is exact; for an odd `N` the spec gives `N/2` no meaning and the floor, `(N-1)/2` bins, is a DESIGN
CHOICE (log 16). -/
def State.bins [Inhabited V] (s : State V) : List (V × V) :=
  (elems (s.platform.n / 2) s.specRe).zip (elems (s.platform.n / 2) s.specIm)

end Sys2Proof.Block

namespace Sys2Proof.Machine

/-! ## The exception and the way out of it -/

section Exception

variable {V : Type}

/-- `raise ConfigError(c)`: `FAULT <- 1; CAUSE <- c; PHASE <- HALT`, and nothing else. "It saves no state, switches no
stack, enters no handler and jumps through no vector" (R109). -/
def raiseConfigError (e : ConfigError) (s : Block.State V) : Block.State V :=
  (s.setFault (causeCode (some e))).setPhase .halt

/-- The host's reset: the whole state becomes the reset state of R35, on the platform `p` that is present after the reset, and
nothing survives of the state, the configuration inputs or `SRC` before it (R119 to R121), nor, a DESIGN CHOICE (log 1), of
the arithmetic and the transform before it. It is the only return from a configuration error,
"after which `CFGCHK` runs again on whatever configuration is then present" (R112). -/
def hostReset [Inhabited V] (p : Platform V) (s : Block.State V) : Block.State V := Block.State.afterReset p s.host

end Exception

/-! ## The numeric stages, over any arithmetic -/

section Numeric

variable {V : Type}

/-- The `N` window coefficients (R65). -/
def windowTable (A : Arith V) (n : Nat) : List V :=
  (List.range n).map (A.wcoef n)

/-- The windowed frame, lane by lane: `mul(sample, coefficient)`, one rounding, the sample first (R66, R68, R69). -/
def windowed (A : Arith V) (x w : List V) : List V :=
  List.zipWith A.mul x w

/-- Entries `0 .. N-1` of the spectrum (R73). -/
def spectrumOf (X : Transform V) (n : Nat) (tw frame : List V) : List (V × V) :=
  (List.range n).map (X.run tw frame)

/-- `mag = sqrt(add(mul(re, re), mul(im, im)))` of a bin `(re, im)`, in this order of operations (R79). -/
def magnitude (A : Arith V) (b : V × V) : V :=
  A.sqrt (A.add (A.mul b.1 b.1) (A.mul b.2 b.2))

/-- The premise `FINITE_SPECTRUM` on the scanned bins: every component is finite and no magnitude overflows (R91). -/
def finiteSpectrum (A : Arith V) (bins : List (V × V)) : Bool :=
  bins.all fun b => A.finite b.1 && A.finite b.2 && A.finite (magnitude A b)

/-- The ascending scan of R78 over the magnitudes of bins `k, k + 1, …`, with the best index and magnitude so far. A
later bin replaces the best only when it is strictly greater (R81). -/
def scanPeak (gt : V → V → Bool) : List V → Nat → Nat × V → Nat
  | [], _, best => best.1
  | x :: xs, k, (bk, bm) => scanPeak gt xs (k + 1) (if gt x bm then (k, x) else (bk, bm))

/-- The peak bin among the scanned bins, listed in ascending order from bin 0 (R78). -/
def peakBin (A : Arith V) (bins : List (V × V)) : Nat :=
  match bins.map (magnitude A) with
  | [] => 0
  | m :: ms => scanPeak A.gt ms 1 (0, m)

end Numeric

/-- The Band of a peak bin, in exact natural arithmetic (R84, R86). -/
def bandOf (fs n kstar : Nat) : Band :=
  if kstar * fs < Config.loHz * n then .low
  else if kstar * fs < Config.hiHz * n then .mid
  else .high

end Sys2Proof.Machine
end

