-- ==== Sys2Proof/Machine/Classifier.lean ====
section
/-! DEFINITION. The operations of the Band Classifier: PEAK, MAP (spec/42_classifier.md), over any carrier, and of the machine
the host runs. -/

namespace Sys2Proof.Block

open Sys2Proof.Machine

variable {V : Type}

/-- `PEAK` (R78): the bin of maximum magnitude, lowest index on a tie, under the premise `FINITE_SPECTRUM`; refused where
the premise fails (R91; log 8). -/
def opPeak [Inhabited V] (a : Numerics V) (s : State V) : Host.Outcome (State V) Fault Refusal :=
  if finiteSpectrum (a.arith s.platform.arith) s.bins then
    .next ((s.setKstar (peakBin (a.arith s.platform.arith) s.bins)).setPhase .map)
  else .refused .nonFiniteSpectrum

/-- `MAP` (R84): the Band of `KSTAR · FS / N` hertz. -/
def opMap (s : State V) : Host.Outcome (State V) Fault Refusal :=
  .next ((s.setBand (bandOf s.platform.fs s.platform.n s.kstar)).setPhase .emit)

end Sys2Proof.Block

namespace Sys2Proof.Machine

/-- `PEAK` of the machine the host runs (R78). -/
def execPeak (s : State) : Host.Outcome State Fault Refusal := Block.opPeak numerics s

/-- `MAP` of the machine the host runs (R84). -/
def execMap (s : State) : Host.Outcome State Fault Refusal := Block.opMap s

end Sys2Proof.Machine
end

