-- ==== Sys2Proof/Machine/Scheduler.lean ====
section
/-! DEFINITION. The operations of the Frame Scheduler: CFGCHK, FETCH, ADV, EMIT, PACE, HALT (spec/43_scheduler.md), over any
carrier, and of the machine the host runs. -/

namespace Sys2Proof.Block

open Sys2Proof.Machine

variable {V : Type}

/-- `CFGCHK` (R94): the configuration error found is raised; otherwise `PHASE <- WINIT`. -/
def opCfgchk (s : State V) : Host.Outcome (State V) Fault Refusal :=
  match configError s.platform with
  | some e => .next (raiseConfigError e s)
  | none   => .next (s.setPhase .winit)

/-- `FETCH` (R95): the samples are copied unchanged; `CURSOR` is not written. The fault is for an element that does not
exist, which takes `L = 0` (log 11). -/
def opFetch [Inhabited V] (s : State V) : Host.Outcome (State V) Fault Refusal :=
  if frameMissing s.platform then .fault .noSuchElement
  else .next ((s.setFrame ((frameAddrs s.platform s.cursor).map s.platform.src.read)).setPhase .adv)

/-- `ADV` (R96): `CURSOR <- (CURSOR + N) mod L`. -/
def opAdv (s : State V) : Host.Outcome (State V) Fault Refusal :=
  .next ((s.setCursor (modL s.platform.l (s.cursor + s.platform.n))).setPhase .window)

/-- `EMIT` (R102): all three lines are written, whatever they held. -/
def opEmit (s : State V) : Host.Outcome (State V) Fault Refusal :=
  .next ((s.setInd (onehot s.band)).setPhase .pace)

/-- `PACE` (R103): the wait `Config.tPace` is one step that changes nothing but `PHASE` (log 14). -/
def opPace (s : State V) : Host.Outcome (State V) Fault Refusal :=
  .next (s.setPhase .fetch)

/-- `HALT` (R104): `PHASE <- HALT`, a step to itself (log 15). -/
def opHalt (s : State V) : Host.Outcome (State V) Fault Refusal :=
  .next (s.setPhase .halt)

end Sys2Proof.Block

namespace Sys2Proof.Machine

/-- `CFGCHK` of the machine the host runs (R94). -/
def execCfgchk (s : State) : Host.Outcome State Fault Refusal := Block.opCfgchk s

/-- `FETCH` of the machine the host runs (R95). -/
def execFetch (s : State) : Host.Outcome State Fault Refusal := Block.opFetch s

/-- `ADV` of the machine the host runs (R96). -/
def execAdv (s : State) : Host.Outcome State Fault Refusal := Block.opAdv s

/-- `EMIT` of the machine the host runs (R102). -/
def execEmit (s : State) : Host.Outcome State Fault Refusal := Block.opEmit s

/-- `PACE` of the machine the host runs (R103). -/
def execPace (s : State) : Host.Outcome State Fault Refusal := Block.opPace s

/-- `HALT` of the machine the host runs (R104). -/
def execHalt (s : State) : Host.Outcome State Fault Refusal := Block.opHalt s

end Sys2Proof.Machine
end

