-- ==== Sys2Proof/Machine/Transforming.lean ====
section
/-! DEFINITION. The operations that call the transform: XINIT, XFORM (spec/41_transform.md), over any carrier, and of the
machine the host runs. -/

namespace Sys2Proof.Block

open Sys2Proof.Machine

variable {V : Type}

/-- `XINIT` (R72): `TW <- XfInit(XF_N)`. For an `XF_N` that is no power of two from 2 on, which `CFGCHK` rejects, `XF_TOTAL`
defines no table: of the reference transform, a free value (DESIGN CHOICE, log 7). -/
def opXinit (a : Numerics V) (s : State V) : Host.Outcome (State V) Fault Refusal :=
  .next ((s.setTw ((a.transform s.platform.xf).init s.platform.xfN)).setPhase .fetch)

/-- `XFORM` (R73): the transform of the `N` elements of `FRAME` replaces the whole spectrum; `FRAME` and `TW` are not
written (R76). On a frame with a value that is not finite, which R73 leaves outside the contract, the operation runs and the
spectrum is whatever the transform answers: of the reference transform, a free value (DESIGN CHOICE, log 7). -/
def opXform [Inhabited V] (a : Numerics V) (s : State V) : Host.Outcome (State V) Fault Refusal :=
  let x := spectrumOf (a.transform s.platform.xf) s.platform.n s.tw (elems s.platform.n s.frame)
  .next ((s.setSpec (x.map Prod.fst) (x.map Prod.snd)).setPhase .peak)

end Sys2Proof.Block

namespace Sys2Proof.Machine

/-- `XINIT` of the machine the host runs (R72). -/
def execXinit (s : State) : Host.Outcome State Fault Refusal := Block.opXinit numerics s

/-- `XFORM` of the machine the host runs (R73); on a frame that is not finite the spectrum is a free value, which is the
model's choice (log 7; `Block.opXform`). -/
def execXform (s : State) : Host.Outcome State Fault Refusal := Block.opXform numerics s

end Sys2Proof.Machine
end

