-- ==== Sys2Proof/Machine/Windowing.lean ====
section
/-! DEFINITION. The operations of the Windowing Stage: WINIT, WINDOW (spec/40_windowing.md), over any carrier, and of the
machine the host runs. -/

namespace Sys2Proof.Block

open Sys2Proof.Machine

variable {V : Type}

/-- `WINIT` (R65): `WIN[i] <- wcoef(N, i)` for all `i < N`. -/
def opWinit (a : Numerics V) (s : State V) : Host.Outcome (State V) Fault Refusal :=
  .next ((s.setWin (windowTable (a.arith s.platform.arith) s.platform.n)).setPhase .xinit)

/-- `WINDOW` (R66): `FRAME[i] <- mul(FRAME[i], WIN[i])` for all `i < N`. -/
def opWindow [Inhabited V] (a : Numerics V) (s : State V) : Host.Outcome (State V) Fault Refusal :=
  .next ((s.setFrame (windowed (a.arith s.platform.arith) (elems s.platform.n s.frame)
    (elems s.platform.n s.win))).setPhase .xform)

end Sys2Proof.Block

namespace Sys2Proof.Machine

/-- `WINIT` of the machine the host runs (R65). -/
def execWinit (s : State) : Host.Outcome State Fault Refusal := Block.opWinit numerics s

/-- `WINDOW` of the machine the host runs (R66). -/
def execWindow (s : State) : Host.Outcome State Fault Refusal := Block.opWindow numerics s

end Sys2Proof.Machine
end

