-- ==== Sys2Proof/Machine/Perform.lean ====
section
/-! DEFINITION. The sequencer over any carrier: the operation a phase code names, and the step, which lets the host's action
go first (R92, R110). -/

namespace Sys2Proof.Block

open Sys2Proof.Machine

variable {V : Type}

/-- The operation `i` of the block over the carrier `V`, with the arithmetic and the transform `a` (R10, R33). -/
def perform [Inhabited V] (a : Numerics V) (i : Instr) (s : State V) : Host.Outcome (State V) Fault Refusal :=
  match i with
  | .cfgchk => opCfgchk s
  | .winit  => opWinit a s
  | .xinit  => opXinit a s
  | .fetch  => opFetch s
  | .adv    => opAdv s
  | .window => opWindow a s
  | .xform  => opXform a s
  | .peak   => opPeak a s
  | .map    => opMap s
  | .emit   => opEmit s
  | .pace   => opPace s
  | .halt   => opHalt s

/-- The operation `PHASE` names, performed by `exec`. A reserved code is stuck (R52, U7; log 9). -/
def runPhase (exec : Instr → State V → Host.Outcome (State V) Fault Refusal) (s : State V) :
    Host.Outcome (State V) Fault Refusal :=
  match decode s.phase with
  | .ok i    => exec i s
  | .error _ => .fault .reservedPhase

/-- One step, for the operations `exec`. The host's next action is taken off the list; a reset wins over any operation (R110,
R119) and takes the platform then presented (R121; log 1), a power-off ends the observation (R128), and with nothing pending the
block performs its operation (log 13). -/
def stepWith [Inhabited V] (exec : Instr → State V → Host.Outcome (State V) Fault Refusal) (s : State V) :
    Host.Outcome (State V) Fault Refusal :=
  match s.host with
  | []                => runPhase exec s
  | .run :: rest      => runPhase exec { s with host := rest }
  | .reset p :: rest  => .next (hostReset p { s with host := rest })
  | .powerOff :: _    => .fault .poweredOff

/-- One step of the block over the carrier `V`. -/
def step [Inhabited V] (a : Numerics V) (s : State V) : Host.Outcome (State V) Fault Refusal := stepWith (perform a) s

end Sys2Proof.Block
end

