-- ==== Sys2Proof/Machine/Dispatch.lean ====
section
/-! DEFINITION. One arm per operation of R51, of the machine the host runs. -/

namespace Sys2Proof.Machine

def exec (i : Instr) (s : State) : Host.Outcome State Fault Refusal :=
  match i with
  | .cfgchk => Sys2Proof.Machine.execCfgchk s
  | .winit => Sys2Proof.Machine.execWinit s
  | .xinit => Sys2Proof.Machine.execXinit s
  | .fetch => Sys2Proof.Machine.execFetch s
  | .adv => Sys2Proof.Machine.execAdv s
  | .window => Sys2Proof.Machine.execWindow s
  | .xform => Sys2Proof.Machine.execXform s
  | .peak => Sys2Proof.Machine.execPeak s
  | .map => Sys2Proof.Machine.execMap s
  | .emit => Sys2Proof.Machine.execEmit s
  | .pace => Sys2Proof.Machine.execPace s
  | .halt => Sys2Proof.Machine.execHalt s

end Sys2Proof.Machine
end

