-- ==== Sys2Proof/Machine/Step.lean ====
section
/-! DEFINITION. One step of the machine the host runs (R92, R110), and the host's check words. -/

namespace Sys2Proof.Machine

/-- One step: the block's (`Block.stepWith`) with the operations of `exec`. -/
def step (s : State) : Host.Outcome State Fault Refusal := Block.stepWith exec s

/-- `s` with the operation of phase code `w` as the one the very next step performs: the code goes into `PHASE`, which is
where the sequencer reads it, and the host does nothing at that step (log 19). -/
def State.withFetchWord (s : State) (nbits w : Nat) : State :=
  { s with phase := BitVec.ofNat 4 (w % 2 ^ nbits), host := .run :: s.host }

end Sys2Proof.Machine
end

