-- ==== Sys2Proof/Reference.lean ====
section
/-! DEFINITION. The reference semantics over the real numbers (R10, R64, R75, R85), and the named properties of an
arithmetic and of a transform that a claim may assume (R65, R74, R80). No step of the machine reads this file. -/

namespace Sys2Proof

/-! ## Properties of an arithmetic configuration (R80) -/

section Properties

variable {V : Type}

/-- What counts as a zero of `V`. The spec speaks of "zeros of `V` (of either sign)", that is `Arith.zero` and a negative zero where
`V` has one (R71, R80), and gives no test for them. DESIGN CHOICE (log 23): a finite value that `gt` places neither above nor
below `zero`. -/
def Arith.isZero (A : Arith V) (v : V) : Bool := A.finite v && !A.gt v A.zero && !A.gt A.zero v

/-- "Not less than zero", "non-negative" (R80), read through `gt`: a finite value that `zero` is not greater than (DEDUCED,
log 23). -/
def Arith.nonneg (A : Arith V) (v : V) : Bool := A.finite v && !A.gt A.zero v

/-- `GT_ORDER`: on finite values `gt` is irreflexive and transitive, and "neither is greater" is transitive too (it is
reflexive and symmetric by its form). -/
def Arith.GtOrder (A : Arith V) : Prop :=
  (∀ a, A.finite a = true → A.gt a a = false) ∧
  (∀ a b c, A.finite a = true → A.finite b = true → A.finite c = true →
    A.gt a b = true → A.gt b c = true → A.gt a c = true) ∧
  (∀ a b c, A.finite a = true → A.finite b = true → A.finite c = true →
    A.gt a b = false → A.gt b a = false → A.gt b c = false → A.gt c b = false →
    A.gt a c = false ∧ A.gt c a = false)

/-- `ZERO_NOT_GT`. -/
def Arith.ZeroNotGt (A : Arith V) : Prop :=
  ∀ y z, A.isZero y = true → A.isZero z = true → A.gt y z = false

/-- `MUL_ZERO`. -/
def Arith.MulZero (A : Arith V) : Prop :=
  ∀ z x, A.isZero z = true → A.finite x = true → A.isZero (A.mul z x) = true ∧ A.isZero (A.mul x z) = true

/-- `ADD_ZERO`. -/
def Arith.AddZero (A : Arith V) : Prop :=
  ∀ y z, A.isZero y = true → A.isZero z = true → A.isZero (A.add y z) = true

/-- `SQRT_ZERO`. -/
def Arith.SqrtZero (A : Arith V) : Prop :=
  ∀ z, A.isZero z = true → A.isZero (A.sqrt z) = true

/-- `SQRT_MONO`: weak monotonicity on finite non-negative values. -/
def Arith.SqrtMono (A : Arith V) : Prop :=
  ∀ a b, A.nonneg a = true → A.nonneg b = true → A.gt a b = false → A.gt (A.sqrt a) (A.sqrt b) = false

/-- `NONNEG`: squares, sums of non-negative values and square roots are not less than zero, where they do not overflow. -/
def Arith.NonNeg (A : Arith V) : Prop :=
  (∀ x, A.finite x = true → A.finite (A.mul x x) = true → A.gt A.zero (A.mul x x) = false) ∧
  (∀ a b, A.nonneg a = true → A.nonneg b = true → A.finite (A.add a b) = true →
    A.gt A.zero (A.add a b) = false) ∧
  (∀ a, A.nonneg a = true → A.finite (A.sqrt a) = true ∧ A.gt A.zero (A.sqrt a) = false)

/-- The four properties by which silence is Low (R71, R82). -/
def Arith.ZeroLaws (A : Arith V) : Prop := A.ZeroNotGt ∧ A.MulZero ∧ A.AddZero ∧ A.SqrtZero

/-- `XF_ZERO`: on a length the transform is built for (`XF_TOTAL`: a power of two, at least 2), the transform of zeros is
zeros, of either sign (R74). -/
def Transform.XfZero (X : Transform V) (A : Arith V) : Prop :=
  ∀ m (x : List V), 1 ≤ m → x.length = 2 ^ m → (∀ v ∈ x, A.isZero v = true) →
    ∀ k < 2 ^ m, A.isZero (X.run (X.init (2 ^ m)) x k).1 = true ∧ A.isZero (X.run (X.init (2 ^ m)) x k).2 = true

/-- `XF_FINITE`, for the real number `val v` each finite value stands for: finite samples in `[-1, 1]` have a finite
transform (R74). -/
def Transform.XfFinite (X : Transform V) (A : Arith V) (val : V → ℝ) : Prop :=
  ∀ m (x : List V), 1 ≤ m → x.length = 2 ^ m → (∀ v ∈ x, A.finite v = true ∧ |val v| ≤ 1) →
    ∀ k < 2 ^ m, A.finite (X.run (X.init (2 ^ m)) x k).1 = true ∧ A.finite (X.run (X.init (2 ^ m)) x k).2 = true

end Properties

/-! ## The reference semantics over ℝ -/

namespace Reference

/-- The window formula `w(N, i) = 0.54 - 0.46·cos(2π·i/(N-1))` for `N ≥ 2` (R64). For `N = 1`, where "the divisor is zero and the
formula has no value", and for `N = 0`, a free value and not what Lean's division by zero gives (DEDUCED, log 12). -/
noncomputable def w (n i : ℕ) : ℝ :=
  if n < 2 then Config.wcoefNoValue n i
  else 0.54 - 0.46 * Real.cos (2 * Real.pi * i / (n - 1))

open Classical in
/-- `Arith.real` (R10): the exact operations on real numbers. The root of a negative number, which no rule takes, is Lean's, zero
(DESIGN CHOICE, log 24). -/
noncomputable def real : Arith ℝ where
  zero   := 0
  mul    := fun a b => a * b
  add    := fun a b => a + b
  sqrt   := Real.sqrt
  gt     := fun a b => decide (b < a)
  finite := fun _ => true
  wcoef  := w

/-- `X` is a forward discrete Fourier transform of the frame `x`, with scale `c` and sign `s` (R75):
`X[k] = c · Σ x[i]·(cos(2π·k·i/N) + s·j·sin(2π·k·i/N))`. -/
def IsDft (c s : ℝ) (x : List ℝ) (X : ℕ → ℝ × ℝ) : Prop :=
  ∀ k < x.length,
    (X k).1 = c * ∑ i ∈ Finset.range x.length, x.getD i 0 * Real.cos (2 * Real.pi * k * i / x.length) ∧
    (X k).2 = c * s * ∑ i ∈ Finset.range x.length, x.getD i 0 * Real.sin (2 * Real.pi * k * i / x.length)

/-- `XF_DFT` (R74): the transform is one over the real numbers, for some fixed scale `c > 0` and sign `s`. R74 says it of a
transform of one length `N`. DEDUCED (log 22): for a transform of all the lengths `2^m` the model asks it of each, so the
scale and the sign are fixed for one length and may differ from one length to another (`c = 1/N` is admitted). -/
def XfDft (X : Transform ℝ) : Prop :=
  ∀ m, 1 ≤ m → ∃ c s : ℝ, 0 < c ∧ (s = 1 ∨ s = -1) ∧
    ∀ x : List ℝ, x.length = 2 ^ m → IsDft c s x (X.run (X.init (2 ^ m)) x)

/-- The Band of a frequency in hertz (R85). -/
def IsBandOf (f : ℝ) : Machine.Band → Prop
  | .low  => f < 500
  | .mid  => 500 ≤ f ∧ f < 2000
  | .high => 2000 ≤ f

/-- The least bin at or above `t` hertz, `ceil(t·N / FS)`, for `FS ≥ 1` (R87). At `FS = 0`, where R87 defines none, a free value and
not what Lean's division by zero gives (DEDUCED, log 24). -/
def thresholdBin (t fs n : ℕ) : ℕ :=
  if fs = 0 then Config.thresholdBinNoValue t n else ⌈(t * n : ℚ) / fs⌉₊

/-- `K_MID` of R87: the least bin at or above 500 Hz. -/
def kMid (fs n : ℕ) : ℕ := thresholdBin 500 fs n

/-- `K_HIGH` of R87: the least bin at or above 2000 Hz. -/
def kHigh (fs n : ℕ) : ℕ := thresholdBin 2000 fs n

/-- The rational number a finite binary32 value stands for. What it gives for a word that is not finite means nothing (DESIGN CHOICE,
log 24). -/
def valueOf (x : Sample) : ℚ := (Machine.Binary32.value x : ℚ) / 2 ^ 149

/-- `WCOEF_CLOSE` (R65): every coefficient is within `eps` of the window formula, `val v` being the real number a value
stands for. `EPS_W` is open. -/
def WcoefClose {V : Type} (A : Arith V) (val : V → ℝ) (eps : ℝ) : Prop :=
  ∀ n i, 2 ≤ n → i < n → |val (A.wcoef n i) - w n i| ≤ eps

end Reference

end Sys2Proof
end

