-- ==== Sys2Proof/Safety.lean ====
section
/-! DEFINITION. What claims about runs speak of: what the outside sees (R15, R36), the operating modes (R115), which
storages an operation reads (R17), one cycle composed of its stages (R105), over any carrier; and the invariant of every run of
the machine the host runs (R24, R30, R97, R123). -/

namespace Sys2Proof.Machine

/-- What the outside of the block can observe: `IND`, `FAULT`, `CAUSE` (R36). -/
def outputs {V : Type} (s : Block.State V) : BitVec 3 × Bool × BitVec 3 := (s.ind, s.fault, s.cause)

/-- The operating modes (R115). -/
inductive Mode where
  | startup
  | run
  | halted
  deriving DecidableEq, Repr

/-- The mode an operation belongs to (R115). -/
def modeOf : Instr → Mode
  | .cfgchk | .winit | .xinit => .startup
  | .fetch | .adv | .window | .xform | .peak | .map | .emit | .pace => .run
  | .halt => .halted

/-- Whether every storage the operation reads holds a value (R17's column "read by", R30). -/
def readsWritten {V : Type} (i : Instr) (s : Block.State V) : Bool :=
  match i with
  | .window => s.written.frame && s.written.win
  | .xform  => s.written.frame && s.written.tw
  | .peak   => s.written.spec
  | .map    => s.written.kstar
  | .emit   => s.written.band
  | .cfgchk | .winit | .xinit | .fetch | .adv | .pace | .halt => true

/-- The Band of the `EMIT` event of one step, if the step is one (R15). -/
def emitted {V : Type} (s : Block.State V) : Option Band :=
  match s.host with
  | .reset _ :: _ | .powerOff :: _ => none
  | [] | .run :: _ => if s.phase = encode .emit then some s.band else none

/-- The observation of the next `k` steps of the machine `step`: the Bands of their `EMIT` events, in order (R15). -/
def emitsOf {V : Type} (step : Block.State V → Host.Outcome (Block.State V) Fault Refusal) : Nat → Block.State V → List Band
  | 0, _ => []
  | k + 1, s =>
    match step s with
    | .next t => (emitted s).toList ++ emitsOf step k t
    | .fault _ | .refused _ => []

/-- The observation of the next `k` steps of the machine the host runs. -/
abbrev emits (k : Nat) (s : State) : List Band := emitsOf step k s

/-- The number of steps of the pseudo-operation `INIT` (R60). -/
def initSteps : Nat := 3

/-- The number of steps of the pseudo-operation `CYCLE` (R60). -/
def cycleSteps : Nat := 8

end Sys2Proof.Machine

namespace Sys2Proof.Block

open Sys2Proof.Machine

variable {V : Type}

/-- Whether `PHASE` names one of the operations listed. -/
abbrev State.isAt (s : State V) (is : List Instr) : Prop := s.phase ∈ is.map encode

variable [Inhabited V]

/-- The block over the carrier `V`, with the arithmetic and the transform `a`, reset on the platform `p`. -/
def core (a : Numerics V) (p : Platform V) : Host.Core where
  State   := State V
  Fault   := Fault
  Refusal := Refusal
  step    := step a
  reset   := State.afterReset p []

/-- The windowed frame of the cycle that starts at element `c` of the Sample Source (R105). Like the stages that follow, it
reads the parameters and `c` alone. -/
def cycleFrame (a : Numerics V) (p : Platform V) (c : Nat) : List V :=
  windowed (a.arith p.arith) ((frameAddrs p c).map p.src.read) (windowTable (a.arith p.arith) p.n)

/-- The spectrum of that frame (R105). -/
def cycleSpectrum (a : Numerics V) (p : Platform V) (c : Nat) : List (V × V) :=
  spectrumOf (a.transform p.xf) p.n ((a.transform p.xf).init p.n) (cycleFrame a p c)

/-- The peak bin of that frame, among the first `N/2` entries (R105). -/
def cyclePeak (a : Numerics V) (p : Platform V) (c : Nat) : Nat :=
  peakBin (a.arith p.arith) ((cycleSpectrum a p c).take (p.n / 2))

/-- The Band of that frame: the stages of one cycle composed (R105). -/
def cycleBand (a : Numerics V) (p : Platform V) (c : Nat) : Band := bandOf p.fs p.n (cyclePeak a p c)

/-- The premise `FINITE_SPECTRUM` on the cycle that starts at element `c` (R91). -/
def cycleFinite (a : Numerics V) (p : Platform V) (c : Nat) : Bool :=
  finiteSpectrum (a.arith p.arith) ((cycleSpectrum a p c).take (p.n / 2))

end Sys2Proof.Block

namespace Sys2Proof.Machine

/-! The same of the machine the host runs. -/

abbrev cycleFrame (p : Platform Sample) (c : Nat) : List Sample := Block.cycleFrame numerics p c

abbrev cycleSpectrum (p : Platform Sample) (c : Nat) : List (Sample × Sample) := Block.cycleSpectrum numerics p c

abbrev cyclePeak (p : Platform Sample) (c : Nat) : Nat := Block.cyclePeak numerics p c

abbrev cycleBand (p : Platform Sample) (c : Nat) : Band := Block.cycleBand numerics p c

abbrev cycleFinite (p : Platform Sample) (c : Nat) : Bool := Block.cycleFinite numerics p c

/-- Every buffer has its `N` elements (R17, R32). -/
structure Sized {V : Type} (s : Block.State V) : Prop where
  win    : s.win.length = s.platform.n
  frame  : s.frame.length = s.platform.n
  specRe : s.specRe.length = s.platform.n
  specIm : s.specIm.length = s.platform.n

/-- The invariant of every run on platforms whose sample tables are in canonical form. -/
structure RunInv (s : State) : Prop where
  /-- `PHASE` holds one of the twelve codes (R52). -/
  legalPhase   : phaseCodeWf s.phase = true
  /-- `FAULT` is set exactly in `HALT` (R104, R112). -/
  faultIffHalt : s.fault = true ↔ s.isAt [.halt]
  /-- `CAUSE` is the code of the error found, `0` while `FAULT = 0` (R23, R110). -/
  causeRight   : s.cause = causeCode (if s.fault then configError s.platform else none)
  /-- The block halts only on a configuration error (R104). -/
  haltOnError  : s.isAt [.halt] → configError s.platform ≠ none
  /-- Past the check the configuration has no error (R123). -/
  checked      : ¬ s.isAt [.cfgchk, .halt] → configError s.platform = none
  /-- The indicator lines hold a legal value (R24). -/
  indLegal     : indWf s.ind = true
  /-- No line is asserted in startup or in `HALT` (R24, R111). -/
  indDark      : s.isAt [.cfgchk, .winit, .xinit, .halt] → s.ind = 0b000#3
  /-- `0 ≤ CURSOR < L` (R97). -/
  cursorRange  : ¬ s.isAt [.cfgchk, .halt] → s.cursor < s.platform.l
  /-- `CURSOR` is `0` until the first advance (R109, R123). -/
  cursorZero   : s.isAt [.cfgchk, .winit, .xinit, .halt] → s.cursor = 0
  /-- Nothing holds a value before `WINIT` and after a configuration error (R35, R109). -/
  untouched    : s.isAt [.cfgchk, .winit, .halt] → s.written = Written.none
  /-- From `WINIT` on, `WIN` is the window table (R70, R123). -/
  winReady     : ¬ s.isAt [.cfgchk, .winit, .halt] →
    s.written.win = true ∧ s.win = windowTable s.arith s.platform.n
  /-- From `XINIT` on, `TW` is the table for length `N` (R72, R123). -/
  twReady      : ¬ s.isAt [.cfgchk, .winit, .xinit, .halt] →
    s.written.tw = true ∧ s.tw = s.transform.init s.platform.n
  /-- `FRAME` holds a value from `FETCH` on (R30). -/
  frameReady   : s.isAt [.adv, .window, .xform] → s.written.frame = true
  /-- `SPEC_RE` and `SPEC_IM` hold a value when `PEAK` reads them (R30). -/
  specReady    : s.isAt [.peak] → s.written.spec = true
  /-- `KSTAR` holds a value when `MAP` reads it (R30). -/
  kstarReady   : s.isAt [.map] → s.written.kstar = true
  /-- `BAND` holds a value when `EMIT` reads it (R30). -/
  bandReady    : s.isAt [.emit] → s.written.band = true
  /-- `0 ≤ KSTAR ≤ N/2 - 1` once it holds a value (R22, R78). -/
  kstarRange   : s.written.kstar = true → s.kstar < s.platform.n / 2
  /-- Every buffer has its `N` elements (R32). -/
  sized        : Sized s
  /-- The sample table is in canonical form. -/
  srcWf        : s.platform.src.wf = true
  /-- So is the table of every platform that a coming reset presents (R121). -/
  hostWf       : ∀ p, .reset p ∈ s.host → p.src.wf = true

end Sys2Proof.Machine
end

