-- ==== Sys2Proof/Certificates/Slice0/Obligations.lean ====
section
/-! DEFINITION. The statements for the provers. A phase code is written out as R51 gives it; `{ s with … }` says that
everything else is unchanged. The marks of `written` are R30's; the model sets the mark of what an operation writes. -/

open Sys2Proof
open Sys2Proof.Machine

/-! ## Codes -/

/-- R51: the twelve codes name the twelve operations. The two `decodeTableWord` clauses are not R51's: the host's form of a code,
and that a word with a bit above the code is refused, are the model's own (log 19, DESIGN CHOICE). -/
def Obligations.TwelveCodesNameTheOperations : Prop :=
  decode 0b0000#4 = .ok .cfgchk ∧ decode 0b0001#4 = .ok .winit ∧ decode 0b0010#4 = .ok .xinit ∧
  decode 0b0011#4 = .ok .fetch ∧ decode 0b0100#4 = .ok .adv ∧ decode 0b0101#4 = .ok .window ∧
  decode 0b0110#4 = .ok .xform ∧ decode 0b0111#4 = .ok .peak ∧ decode 0b1000#4 = .ok .map ∧
  decode 0b1001#4 = .ok .emit ∧ decode 0b1010#4 = .ok .pace ∧ decode 0b1111#4 = .ok .halt ∧
  decodeTableWord 8 0x0F = some .halt ∧ decodeTableWord 8 0x10 = none

/-- R62: every raw phase, Band and cause value decodes to exactly one name or to "invalid", and to "invalid" exactly where
R52, R54 and R56 say so. -/
def Obligations.RawCodesDecodeToOneNameOrInvalid : Prop :=
  (∀ c i, decode c = .ok i ↔ c = encode i) ∧
  (∀ c, decode c = .error (.reservedCode c) ↔ c ∈ [0xB#4, 0xC#4, 0xD#4, 0xE#4]) ∧
  (∀ c b, bandOfCode c = some b ↔ c = bandCode b) ∧ (∀ c, bandOfCode c = none ↔ c = 0b11#2) ∧
  (∀ c e, causeOfCode c = some e ↔ c = causeCode e) ∧ (∀ c, causeOfCode c = none ↔ 5 ≤ c.toNat)

/-! ## The step -/

/-- A step with nothing pending from the host is the operation `PHASE` names, at that state; a pending "nothing" of the host
is taken off its list first (log 13: the list is the model's). Every step of the machine the host runs is a step of the block
of R10 and R33, which takes its carrier, arithmetic and transform as arguments, over 32-bit words (log 4). -/
def Obligations.StepPerformsTheDecodedOperation : Prop :=
  (∀ (s : State) (i : Instr), decode s.phase = .ok i →
    (s.host = [] → step s = exec i s) ∧
    (∀ r, s.host = .run :: r → step s = exec i { s with host := r })) ∧
  (∀ (i : Instr) (s : State), exec i s = Block.perform numerics i s) ∧ ∀ s : State, step s = Block.step numerics s

/-- The host's check word: the step after it performs the operation the word decodes to, and nothing else changes
(log 19). -/
def Obligations.FetchWordIsPerformedNext : Prop :=
  ∀ (s : State) (nbits w : Nat) (i : Instr), decodeTableWord nbits w = some i →
    step (s.withFetchWord nbits w) = exec i { s with phase := encode i }

/-- R52 (log 9): a reserved phase code has no step: the model stops by name and performs no operation. -/
def Obligations.ReservedPhaseHasNoStep : Prop :=
  ∀ s : State, s.phase ∈ [0xB#4, 0xC#4, 0xD#4, 0xE#4] →
    (s.host = [] → step s = .fault .reservedPhase) ∧ (∀ r, s.host = .run :: r → step s = .fault .reservedPhase)

/-- R119: a reset may occur in any state, whatever `PHASE` holds, and gives the reset state: the scalars at their reset
values, every buffer, `TW`, `BAND` and `KSTAR` holding no value; the configuration inputs and `SRC` are those the platform presents
after the reset (R121). That parameters stand in the state, that the host's list names the platform a reset presents, and that this
platform brings its arithmetic and its transform too, of which R121 does not speak, is the model's choice (log 1, log 13). -/
def Obligations.ResetWinsInEveryState : Prop :=
  ∀ (s : State) (p : Platform Sample) (r : List (HostAction Sample)), s.host = .reset p :: r →
    ∃ t, step s = .next t ∧ t.cursor = 0 ∧ t.phase = 0x0#4 ∧ t.fault = false ∧ t.cause = 0#3 ∧ t.ind = 0b000#3 ∧
      t.written = ⟨false, false, false, false, false, false⟩ ∧ t.platform = p ∧ t.host = r

/-- R121: nothing survives a reset. Two blocks that are reset with the same platform present, whatever state and platform each
had, run alike from then on, and as on a first run on that platform. (That a reset may find another arithmetic or transform than
before it, of which R121 does not speak, is the model's choice: log 1.) -/
def Obligations.NothingSurvivesAReset : Prop :=
  ∀ (s u : State) (p : Platform Sample) (r : List (HostAction Sample)), s.host = .reset p :: r → u.host = .reset p :: r →
    ∀ k, core.run (k + 1) s = core.run (k + 1) u ∧ core.run (k + 1) s = core.run k (State.afterReset p r)

/-- R128 (log 13): power-off is the end of observation: the model stops by name in every state. -/
def Obligations.PowerOffEndsTheObservation : Prop :=
  ∀ (s : State) (r : List (HostAction Sample)), s.host = .powerOff :: r → step s = .fault .poweredOff ∧ emitted s = none

/-- R35: the reset values the spec states, and "no value" for the rest. -/
def Obligations.ResetValuesAreTheTable : Prop :=
  State.reset.cursor = 0 ∧ State.reset.phase = 0x0#4 ∧ State.reset.fault = false ∧ State.reset.cause = 0#3 ∧
  State.reset.ind = 0b000#3 ∧ State.reset.written.band = false ∧ State.reset.written.kstar = false ∧
  State.reset.written.win = false ∧ State.reset.written.frame = false ∧ State.reset.written.spec = false ∧
  State.reset.written.tw = false

/-! ## CFGCHK -/

/-- R94, R109, R110: the check and the error it raises. The conditions are R108's and R107's own, tested in the order
1, 2, 3, 4; an error writes `FAULT`, `CAUSE` and `PHASE` and nothing else; otherwise `PHASE` alone is written. -/
def Obligations.ConfigCheckRaisesTheFirstErrorOrPasses : Prop :=
  ∀ s : State,
    let n := s.platform.n
    let pow2 : Prop := ∃ m, n = 2 ^ m
    let mid : Prop := ∃ k, k < n / 2 ∧ 500 * n ≤ k * s.platform.fs ∧ k * s.platform.fs < 2000 * n
    let high : Prop := ∃ k, k < n / 2 ∧ 2000 * n ≤ k * s.platform.fs
    let raised (c : BitVec 3) : State := { s with fault := true, cause := c, phase := 0xF#4 }
    (¬ pow2 → exec .cfgchk s = .next (raised 1#3)) ∧
    (pow2 → s.platform.xfN ≠ n → exec .cfgchk s = .next (raised 2#3)) ∧
    (pow2 → s.platform.xfN = n → (¬ mid ∨ ¬ high) → exec .cfgchk s = .next (raised 3#3)) ∧
    (pow2 → s.platform.xfN = n → mid → high → s.platform.l = 0 → exec .cfgchk s = .next (raised 4#3)) ∧
    (pow2 → s.platform.xfN = n → mid → high → s.platform.l ≠ 0 →
      exec .cfgchk s = .next { s with phase := 0x1#4 })

/-- R107: a band mapping is degenerate when some Band has no bin among the scanned ones; the rule's predicates, its closed form
and its threshold-bin form for a power of two, and the consequences the rule draws. -/
def Obligations.DegenerateMappingClosedForms : Prop :=
  (∀ fs n, degenerate fs n = true ↔ ∃ b : Band, ∀ k, k < n / 2 → bandOf fs n k ≠ b) ∧
  (∀ fs n, degenerate fs n = true ↔
    (¬ ∃ k, k < n / 2 ∧ 500 * n ≤ k * fs ∧ k * fs < 2000 * n) ∨ (¬ ∃ k, k < n / 2 ∧ 2000 * n ≤ k * fs)) ∧
  (∀ fs m, degenerate fs (2 ^ m) = true ↔
    2 ^ m < 2 ∨ 2000 * 2 ^ m ≤ fs ∨ (2 ^ m / 2 - 1) * fs < 2000 * 2 ^ m) ∧
  (∀ fs m, 0 < fs → (degenerate fs (2 ^ m) = false ↔
    Reference.kMid fs (2 ^ m) < Reference.kHigh fs (2 ^ m) ∧ Reference.kHigh fs (2 ^ m) ≤ 2 ^ m / 2 - 1)) ∧
  (∀ n, degenerate 0 n = true) ∧
  (∀ fs m, 2 ^ m < 8 → degenerate fs (2 ^ m) = true) ∧
  (∀ fs, degenerate fs 1024 = false ↔ 4008 ≤ fs ∧ fs ≤ 2047999) ∧
  degenerate 44100 1024 = false ∧ Reference.kMid 44100 1024 = 12 ∧ Reference.kHigh 44100 1024 = 47

/-! ## Startup tables -/

/-- `WINIT` (R65) answers in every state: `WIN` has `N` elements, element `i` is `wcoef(N, i)`; `PHASE` moves on; nothing else
changes. -/
def Obligations.WinitFillsTheWindow : Prop :=
  ∀ s : State, ∃ x : List Sample, x.length = s.platform.n ∧
    (∀ i, i < s.platform.n → x[i]? = some (s.arith.wcoef s.platform.n i)) ∧
    exec .winit s = .next { s with win := x, phase := 0x2#4, written := { s.written with win := true } }

/-- `XINIT` (R72) answers in every state: `TW` is `XfInit(XF_N)`; `PHASE` moves on; nothing else changes. -/
def Obligations.XinitAsksForTheTable : Prop :=
  ∀ s : State, exec .xinit s = .next
    { s with tw := (transformOf s.platform.xf).init s.platform.xfN, phase := 0x3#4,
             written := { s.written with tw := true } }

/-- R123: the boot order, and what startup establishes, on every platform that passes the check, before the first `FETCH`. -/
def Obligations.StartupEstablishesItsPremises : Prop :=
  ∀ p : Platform Sample, configError p = none →
    ∃ a b t, decode (State.afterReset p []).phase = .ok .cfgchk ∧ step (State.afterReset p []) = .next a ∧
      decode a.phase = .ok .winit ∧ step a = .next b ∧ decode b.phase = .ok .xinit ∧ step b = .next t ∧
      decode t.phase = .ok .fetch ∧ t.platform = p ∧
      (∃ m, p.n = 2 ^ m) ∧ p.xfN = p.n ∧ degenerate p.fs p.n = false ∧ 1 ≤ p.l ∧ 8 ≤ p.n ∧
      t.win.length = p.n ∧ (∀ i, i < p.n → t.win[i]? = some ((arithOf p.arith).wcoef p.n i)) ∧
      t.tw = (transformOf p.xf).init p.n ∧ t.cursor = 0 ∧ t.fault = false ∧ t.ind = 0b000#3

/-! ## FETCH and ADV -/

/-- `FETCH` (R95, R40, R101) answers whenever the Sample Source has a sample, for every cursor and every `N`, also `N > L`: element
`i` of `FRAME` is the sample at `(CURSOR + i) mod L`, unchanged; `CURSOR` and everything else stays. On a source put in place from its
`L` samples `xs` (R37: `SRC[a]` is sample `a`), element `i` is `xs[(CURSOR + i) mod L]`. -/
def Obligations.FetchCopiesTheCircularSlice : Prop :=
  ∀ s : State, 0 < s.platform.l → ∃ x : List Sample, x.length = s.platform.n ∧
    (∀ i, i < s.platform.n → x[i]? = some (s.platform.src.read ((s.cursor + i) % s.platform.l))) ∧
    (∀ xs : List Sample, xs.length = s.platform.l → s.platform.src = Memory.ofSamples 0 xs →
      ∀ i, i < s.platform.n → x[i]? = xs[(s.cursor + i) % s.platform.l]?) ∧
    exec .fetch s = .next { s with frame := x, phase := 0x4#4, written := { s.written with frame := true } }

/-- With an empty Sample Source, which `CFGCHK` rejects, no element exists: `FETCH` of a frame with an element stops by name, and
`FETCH` of a frame with none reads nothing and goes on. The stop is the model's choice (log 11). -/
def Obligations.FetchFromAnEmptySourceFaults : Prop :=
  ∀ s : State, s.platform.l = 0 →
    (s.platform.n ≠ 0 → exec .fetch s = .fault .noSuchElement) ∧
    (s.platform.n = 0 → exec .fetch s =
      .next { s with frame := [], phase := 0x4#4, written := { s.written with frame := true } })

/-- `ADV` (R96): `CURSOR <- (CURSOR + N) mod L`, in unbounded naturals; nothing else changes but `PHASE`. -/
def Obligations.AdvMovesTheCursorByN : Prop :=
  ∀ s : State, 0 < s.platform.l →
    exec .adv s = .next { s with cursor := (s.cursor + s.platform.n) % s.platform.l, phase := 0x5#4 }

/-- With an empty Sample Source the remainder has no value (R108); `ADV` still runs, and the cursor it writes is some value, of
which nothing is said (log 11: a free value). -/
def Obligations.AdvRunsWithAnEmptySource : Prop :=
  ∀ s : State, s.platform.l = 0 → ∃ c, exec .adv s = .next { s with cursor := c, phase := 0x5#4 }

/-- R98: from cursor 0 the cursor of cycle `m` is `(m·N) mod L`; the sequence has least period `L / gcd(L, N)` and takes exactly
the multiples of `gcd(L, N)` below `L`; the numbers of the rule. -/
def Obligations.CursorSequenceAndItsPeriod : Prop :=
  (∀ l n m, 0 < l → (fun c => modL l (c + n))^[m] 0 = m * n % l) ∧
  (∀ l n m j, 0 < l → (m * n % l = j * n % l ↔ m % (l / Nat.gcd l n) = j % (l / Nat.gcd l n))) ∧
  (∀ l n c, 0 < l → ((∃ m, m < l / Nat.gcd l n ∧ m * n % l = c) ↔ c < l ∧ Nat.gcd l n ∣ c)) ∧
  44100 / Nat.gcd 44100 1024 = 11025 ∧ 44 * 1024 % 44100 = 956 ∧
  (∀ l n, 0 < l → 0 < n → (n ∣ l ∨ l ∣ n) → (l + n - 1) / n * n % l = 0)

/-! ## WINDOW -/

/-- `WINDOW` (R66, R68, R69) answers in every state: `FRAME` has `N` elements again, lane `i` is `mul(FRAME[i], WIN[i])`, the sample
first; `WIN` and everything else stays. -/
def Obligations.WindowMultipliesLaneByLane : Prop :=
  ∀ s : State, ∃ x : List Sample, x.length = s.platform.n ∧
    (∀ i (hf : i < s.frame.length) (hw : i < s.win.length), i < s.platform.n →
      x[i]? = some ((arithOf s.platform.arith).mul s.frame[i] s.win[i])) ∧
    exec .window s = .next { s with frame := x, phase := 0x6#4, written := { s.written with frame := true } }

/-- R71: a zero sample gives a zero windowed sample, given `MUL_ZERO` and a finite coefficient. (What counts as a zero of the carrier
is the model's choice: log 23.) -/
def Obligations.ZeroSamplesStayZero : Prop :=
  ∀ s : State, s.arith.MulZero → Sized s →
    ∃ t, exec .window s = .next t ∧
      ∀ i (h : i < s.frame.length) (hw : i < s.win.length), s.arith.isZero s.frame[i] = true →
        s.arith.finite s.win[i] = true → ∃ v, t.frame[i]? = some v ∧ s.arith.isZero v = true

/-- R67 items 1 to 3 and what R67 and R66 conclude from them: the ends, the symmetry and the range of the window, and that windowing
never increases an absolute value and never changes a sign. -/
def Obligations.WindowEndsSymmetryAndRange : Prop :=
  (∀ n, 2 ≤ n → Reference.w n 0 = 0.08 ∧ Reference.w n (n - 1) = 0.08) ∧
  (∀ n i, 2 ≤ n → i < n → Reference.w n i = Reference.w n (n - 1 - i)) ∧
  (∀ n i, 2 ≤ n → i < n → 0.08 ≤ Reference.w n i ∧ Reference.w n i ≤ 1) ∧
  (∀ (x : List ℝ) i (h : i < x.length), 2 ≤ x.length →
    ∃ y, (windowed Reference.real x (windowTable Reference.real x.length))[i]? = some y ∧
      |y| ≤ |x[i]| ∧ (0 < x[i] → 0 < y) ∧ (x[i] < 0 → y < 0))

/-- R67 items 4 and 5: the value 1 only where `2i = N - 1`, so for no coefficient of an even `N`; the maximum at the two middle
indices and its value; strictly increasing, then strictly decreasing. -/
def Obligations.WindowCentreAndMonotoneHalves : Prop :=
  (∀ n i, 2 ≤ n → i < n → (Reference.w n i = 1 ↔ 2 * i = n - 1)) ∧
  (∀ h, 1 ≤ h →
    Reference.w (2 * h) (h - 1) = 0.54 + 0.46 * Real.cos (Real.pi / ((2 * h : ℕ) - 1)) ∧
    Reference.w (2 * h) h = Reference.w (2 * h) (h - 1) ∧
    (∀ i, i < 2 * h → Reference.w (2 * h) i ≤ Reference.w (2 * h) h ∧ Reference.w (2 * h) i ≠ 1) ∧
    (∀ i j, i < j → j < h → Reference.w (2 * h) i < Reference.w (2 * h) j) ∧
    (∀ i j, h ≤ i → i < j → j < 2 * h → Reference.w (2 * h) j < Reference.w (2 * h) i))

/-! ## XFORM -/

/-- `XFORM` (R73, R76) answers in every state: the whole spectrum is replaced by the `N` entries of `Xf(TW, FRAME)`; `FRAME`, `TW` and
everything else stays. -/
def Obligations.XformReplacesTheSpectrum : Prop :=
  ∀ s : State, ∃ re im : List Sample, re.length = s.platform.n ∧ im.length = s.platform.n ∧
    (s.frame.length = s.platform.n → ∀ k, k < s.platform.n →
      re[k]? = some ((transformOf s.platform.xf).run s.tw s.frame k).1 ∧
      im[k]? = some ((transformOf s.platform.xf).run s.tw s.frame k).2) ∧
    exec .xform s = .next
      { s with specRe := re, specIm := im, phase := 0x7#4, written := { s.written with spec := true } }

/-- R75: over the real numbers neither the scale `c > 0` nor the sign `s` of the transform can change the peak bin, hence no
Band: any transform with `XF_DFT` may stand for any other (R74). -/
def Obligations.ScaleAndSignLeaveThePeak : Prop :=
  (∀ (X Y : Transform ℝ), Reference.XfDft X → Reference.XfDft Y →
    ∀ (m : ℕ) (x : List ℝ) (fs : ℕ), 1 ≤ m → x.length = 2 ^ m →
      bandOf fs (2 ^ m) (peakBin Reference.real ((spectrumOf X (2 ^ m) (X.init (2 ^ m)) x).take (2 ^ m / 2))) =
      bandOf fs (2 ^ m) (peakBin Reference.real ((spectrumOf Y (2 ^ m) (Y.init (2 ^ m)) x).take (2 ^ m / 2)))) ∧
  ∀ (c d s r : ℝ) (x : List ℝ) (X Y : ℕ → ℝ × ℝ) (b : ℕ), 0 < c → 0 < d → (s = 1 ∨ s = -1) → (r = 1 ∨ r = -1) →
    Reference.IsDft c s x X → Reference.IsDft d r x Y → b ≤ x.length →
    peakBin Reference.real ((List.range b).map X) = peakBin Reference.real ((List.range b).map Y)

/-- R77: for a real frame entry `N - k` is the complex conjugate of entry `k`, so the entries above `N/2` repeat the magnitudes of the
ones below. -/
def Obligations.RealFrameHasAConjugateSpectrum : Prop :=
  ∀ (c s : ℝ) (x : List ℝ) (X : ℕ → ℝ × ℝ), Reference.IsDft c s x X → ∀ k, 1 ≤ k → k < x.length →
    (X (x.length - k)).1 = (X k).1 ∧ (X (x.length - k)).2 = -(X k).2 ∧
    magnitude Reference.real (X (x.length - k)) = magnitude Reference.real (X k)

/-! ## PEAK -/

/-- `PEAK` (R78, R79, R81) answers on every finite spectrum, for every arithmetic; nothing else changes but `PHASE`. `KSTAR` is in
`0 .. N/2-1`, and the least bin there whose magnitude none exceeds whenever `gt` is a strict weak order on finite values (`GT_ORDER`).
With no bin but bin 0 to compare it is 0. (For `N` below 2, where there is none, and for an odd `N`, where `N/2` is read as the
floor, that is the model's choice: log 16.) -/
def Obligations.PeakFindsTheLeastBinOfMaximumMagnitude : Prop :=
  ∀ s : State,
    let a := arithOf s.platform.arith
    let re := elem s.specRe
    let im := elem s.specIm
    let mag := fun k => a.sqrt (a.add (a.mul (re k) (re k)) (a.mul (im k) (im k)))
    (∀ k, k < s.platform.n / 2 → a.finite (re k) = true ∧ a.finite (im k) = true ∧ a.finite (mag k) = true) →
    ∃ b, exec .peak s = .next { s with kstar := b, phase := 0x8#4, written := { s.written with kstar := true } } ∧
      (2 ≤ s.platform.n → b < s.platform.n / 2) ∧ (s.platform.n < 4 → b = 0) ∧
      (a.GtOrder → 2 ≤ s.platform.n →
        (∀ j, j < s.platform.n / 2 → a.gt (mag j) (mag b) = false) ∧ (∀ j, j < b → a.gt (mag b) (mag j) = true))

/-- R91: where the premise `FINITE_SPECTRUM` fails, `PEAK` is refused, by name, and picks no value; it is refused only there. -/
def Obligations.PeakRefusesANonFiniteSpectrum : Prop :=
  ∀ s : State,
    let a := arithOf s.platform.arith
    let re := elem s.specRe
    let im := elem s.specIm
    let mag := fun k => a.sqrt (a.add (a.mul (re k) (re k)) (a.mul (im k) (im k)))
    exec .peak s = .refused .nonFiniteSpectrum ↔
      ∃ k, k < s.platform.n / 2 ∧ (a.finite (re k) = false ∨ a.finite (im k) = false ∨ a.finite (mag k) = false)

/-- R78's reference meaning: over the real numbers the scan gives the least bin whose magnitude `sqrt(re² + im²)` is maximal. -/
def Obligations.RealPeakIsTheLeastArgmax : Prop :=
  ∀ (bins : List (ℝ × ℝ)), bins ≠ [] →
    ∃ h : peakBin Reference.real bins < bins.length,
      (∀ b ∈ bins, Real.sqrt (b.1 ^ 2 + b.2 ^ 2) ≤
        Real.sqrt (bins[peakBin Reference.real bins].1 ^ 2 + bins[peakBin Reference.real bins].2 ^ 2)) ∧
      ∀ j (hj : j < peakBin Reference.real bins), Real.sqrt ((bins[j]'(hj.trans h)).1 ^ 2 + (bins[j]'(hj.trans h)).2 ^ 2) <
        Real.sqrt (bins[peakBin Reference.real bins].1 ^ 2 + bins[peakBin Reference.real bins].2 ^ 2)

/-- R82: an all-zero spectrum gives `KSTAR = 0` and Low, by the four zero properties alone; with `XF_ZERO` an all-zero frame does
too, through `XFORM`, `PEAK` and `MAP`. (What counts as a zero of the carrier is the model's choice: log 23.) -/
def Obligations.ZeroSpectrumAndZeroFrameAreLow : Prop :=
  (∀ s : State, s.arith.ZeroLaws → 1 ≤ s.platform.n →
    (∀ k, k < s.platform.n / 2 →
      s.arith.isZero (elem s.specRe k) = true ∧ s.arith.isZero (elem s.specIm k) = true) →
    ∃ t u, exec .peak s = .next t ∧ t.kstar = 0 ∧ exec .map t = .next u ∧ u.band = .low) ∧
  (∀ (s : State) (m : Nat), s.arith.ZeroLaws → s.transform.XfZero s.arith → 1 ≤ m → s.platform.n = 2 ^ m →
    s.frame.length = s.platform.n → s.tw = s.transform.init s.platform.n →
    (∀ v ∈ s.frame, s.arith.isZero v = true) →
    ∃ t u v, exec .xform s = .next t ∧ exec .peak t = .next u ∧ u.kstar = 0 ∧ exec .map u = .next v ∧ v.band = .low)

/-- R83: over the real numbers dropping the square root changes nothing; in binary32 it can change the peak bin, on a finite
spectrum. -/
def Obligations.SquareRootMayNotBeDropped : Prop :=
  (∀ bins : List (ℝ × ℝ), peakBin Reference.real bins = peakBin { Reference.real with sqrt := fun v => v } bins) ∧
  (∃ bins : List (Sample × Sample), finiteSpectrum Binary32.arith bins = true ∧
    peakBin Binary32.arith bins < peakBin { Binary32.arith with sqrt := fun v => v } bins)

/-- R28, R88: `PEAK` reads the first `N/2` entries and no other: two spectra that agree there give the same peak bin, or are both
refused. -/
def Obligations.PeakIgnoresTheUpperHalf : Prop :=
  ∀ (s : State) (re im : List Sample),
    (∀ k, k < s.platform.n / 2 → elem re k = elem s.specRe k ∧ elem im k = elem s.specIm k) →
    (∀ t, exec .peak s = .next t →
      exec .peak { s with specRe := re, specIm := im } = .next { t with specRe := re, specIm := im }) ∧
    (exec .peak s = .refused .nonFiniteSpectrum →
      exec .peak { s with specRe := re, specIm := im } = .refused .nonFiniteSpectrum)

/-! ## MAP -/

/-- R84, R85, R86: `MAP` answers in every state; its exact natural-number comparison gives the Band of the frequency `KSTAR · FS / N`
as a real number; nothing else changes but `PHASE`. -/
def Obligations.MapGivesTheBandOfTheFrequency : Prop :=
  ∀ s : State, ∃ b : Band,
    exec .map s = .next { s with band := b, phase := 0x9#4, written := { s.written with band := true } } ∧
    (s.kstar * s.platform.fs < 500 * s.platform.n → b = .low) ∧
    (500 * s.platform.n ≤ s.kstar * s.platform.fs → s.kstar * s.platform.fs < 2000 * s.platform.n → b = .mid) ∧
    (2000 * s.platform.n ≤ s.kstar * s.platform.fs → b = .high) ∧
    (1 ≤ s.platform.n → Reference.IsBandOf ((s.kstar : ℝ) * s.platform.fs / s.platform.n) b)

/-- R87: the threshold-bin form, and its numbers for the reference values. -/
def Obligations.ThresholdBinsGiveTheBand : Prop :=
  (∀ fs n k, 1 ≤ fs → 1 ≤ n →
    Reference.kMid fs n ≤ Reference.kHigh fs n ∧
    (bandOf fs n k = .low ↔ k < Reference.kMid fs n) ∧
    (bandOf fs n k = .mid ↔ Reference.kMid fs n ≤ k ∧ k < Reference.kHigh fs n) ∧
    (bandOf fs n k = .high ↔ Reference.kHigh fs n ≤ k) ∧
    (∀ j, 500 * n ≤ j * fs ↔ Reference.kMid fs n ≤ j) ∧ (∀ j, 2000 * n ≤ j * fs ↔ Reference.kHigh fs n ≤ j)) ∧
  Reference.kMid 44100 1024 = 12 ∧ Reference.kHigh 44100 1024 = 47 ∧
  (∀ k, (bandOf 44100 1024 k = .low ↔ k ≤ 11) ∧ (bandOf 44100 1024 k = .mid ↔ 12 ≤ k ∧ k ≤ 46) ∧
    (bandOf 44100 1024 k = .high ↔ 47 ≤ k))

/-- R89: a frequency exactly on a threshold belongs to the upper band; such a bin exists only when the threshold is a multiple of
the bin width; the examples of the rule. -/
def Obligations.ThresholdFrequenciesBelongToTheUpperBand : Prop :=
  (∀ fs n k, 1 ≤ n → k * fs = 500 * n → bandOf fs n k = .mid) ∧
  (∀ fs n k, 1 ≤ n → k * fs = 2000 * n → bandOf fs n k = .high) ∧
  (∀ fs n T : Nat, (∃ k, k * fs = T * n) ↔ fs ∣ T * n) ∧
  1 * 8000 = 500 * 16 ∧ 4 * 8000 = 2000 * 16 ∧ bandOf 8000 16 1 = .mid ∧ bandOf 8000 16 4 = .high ∧
  (∀ k, k * 44100 ≠ 500 * 1024 ∧ k * 44100 ≠ 2000 * 1024)

/-! ## EMIT, PACE, HALT -/

/-- R102: `EMIT` answers in every state and writes all three lines, the one of the Band asserted and the other two not, whatever they
held; nothing else changes but `PHASE`. -/
def Obligations.EmitAssertsExactlyOneLine : Prop :=
  ∀ s : State, ∃ v : BitVec 3, exec .emit s = .next { s with ind := v, phase := 0xA#4 } ∧
    (s.band = .low → v = 0b001#3) ∧ (s.band = .mid → v = 0b010#3) ∧ (s.band = .high → v = 0b100#3)

/-- R103: `PACE` answers in every state and changes nothing but `PHASE`. -/
def Obligations.PaceChangesOnlyThePhase : Prop :=
  ∀ s : State, exec .pace s = .next { s with phase := 0x3#4 }

/-- R104: `HALT` holds `PHASE` at `HALT` and changes nothing else; as a step from `HALT` it changes nothing. That `HALT` answers a next
state at all, a step to itself, is the model's choice (log 15): R104 leaves a self-loop or no step to the modeller. -/
def Obligations.HaltChangesNothing : Prop :=
  ∀ s : State, exec .halt s = .next { s with phase := 0xF#4 } ∧
    (s.phase = 0xF#4 → s.host = [] → step s = .next s)

/-- R111, R112: after a configuration error, with no reset, no operation but `HALT` is performed for any number of steps: the state
stays as the error left it, there is no `EMIT` event, and lines that were dark, as they are from reset on (R35), stay dark. That the
steps in `HALT` are steps at all is the model's choice (log 15). -/
def Obligations.ConfigErrorIsTheEndOfTheRun : Prop :=
  ∀ (s : State) (e : ConfigError), s.host = [] → s.phase = 0x0#4 → configError s.platform = some e →
    ∀ k, core.run (k + 1) s = .next { s with fault := true, cause := causeCode (some e), phase := 0xF#4 } ∧
      emits (k + 1) s = [] ∧
      (s.ind = 0b000#3 → ∃ t : State, core.run (k + 1) s = .next t ∧ t.ind = 0b000#3)

/-- R112: `FAULT`, once set, is cleared by no operation; `PHASE` stays `HALT` and no second exception occurs there; a reset is the way
out, and `CFGCHK` is then the operation performed next, on the configuration that is then present. (R112 says this of the
configuration: that the reset takes the arithmetic and the transform then present too is the model's choice, log 1, as is the host's
list that names the platform, log 13.) -/
def Obligations.OnlyResetClearsTheFault : Prop :=
  (∀ s t : State, step s = .next t → s.fault = true → (∀ p r, s.host ≠ .reset p :: r) →
    t.fault = true ∧ (s.phase = 0xF#4 → t.phase = 0xF#4 ∧ t.cause = s.cause)) ∧
  (∀ (s : State) (p : Platform Sample) (r : List (HostAction Sample)), s.host = .reset p :: r →
    ∃ t, step s = .next t ∧ t.fault = false ∧ decode t.phase = .ok .cfgchk ∧ t.platform = p)

/-! ## All operations together -/

/-- R92: the successor table. -/
def Obligations.SuccessorTable : Prop :=
  ∀ (i : Instr) (s t : State), exec i s = .next t →
    (∀ c, (i, c) ∈ [(Instr.winit, 0x2#4), (.xinit, 0x3#4), (.fetch, 0x4#4), (.adv, 0x5#4), (.window, 0x6#4),
        (.xform, 0x7#4), (.peak, 0x8#4), (.map, 0x9#4), (.emit, 0xA#4), (.pace, 0x3#4), (.halt, 0xF#4)] →
      t.phase = c) ∧
    (i = .cfgchk → (configError s.platform = none → t.phase = 0x1#4) ∧ (configError s.platform ≠ none → t.phase = 0xF#4))

/-- R17's column "written by": no operation but the ones listed changes a register or buffer, and none changes a parameter. -/
def Obligations.EachStorageHasItsWriters : Prop :=
  ∀ (i : Instr) (s t : State), exec i s = .next t →
    (t.cursor ≠ s.cursor → i = .adv) ∧ (t.band ≠ s.band → i = .map) ∧ (t.kstar ≠ s.kstar → i = .peak) ∧
    (t.fault ≠ s.fault → i = .cfgchk) ∧ (t.cause ≠ s.cause → i = .cfgchk) ∧ (t.ind ≠ s.ind → i = .emit) ∧
    (t.win ≠ s.win → i = .winit) ∧ (t.frame ≠ s.frame → i = .fetch ∨ i = .window) ∧
    (t.specRe ≠ s.specRe → i = .xform) ∧ (t.specIm ≠ s.specIm → i = .xform) ∧ (t.tw ≠ s.tw → i = .xinit) ∧
    t.platform = s.platform ∧ t.host = s.host

/-- R36, R102: what the outside can see, `IND`, `FAULT` and `CAUSE`, changes at a step that is no reset only where `EMIT` writes the lines
or `CFGCHK` reports an error. -/
def Obligations.OutputsChangeOnlyAtEmitOrTheCheck : Prop :=
  ∀ s t : State, (∀ p r, s.host ≠ .reset p :: r) → step s = .next t → outputs t ≠ outputs s →
    (decode s.phase = .ok .emit ∧ t.ind = onehot s.band ∧ t.fault = s.fault ∧ t.cause = s.cause) ∨
    (decode s.phase = .ok .cfgchk ∧ configError s.platform ≠ none ∧ t.ind = s.ind ∧ t.fault = true ∧
      t.cause = causeCode (configError s.platform))

/-- R115: the modes are left only as the table says. -/
def Obligations.ModesAreLeftOnlyAsStated : Prop :=
  ∀ (s t : State) (i : Instr), decode s.phase = .ok i → (∀ p r, s.host ≠ .reset p :: r) → step s = .next t →
    ∃ j, decode t.phase = .ok j ∧
      (modeOf i = .run → modeOf j = .run) ∧ (modeOf i = .halted → modeOf j = .halted) ∧
      (modeOf i = .startup → modeOf j = .startup ∨ (i = .xinit ∧ modeOf j = .run) ∨ (i = .cfgchk ∧ modeOf j = .halted))

/-- R25, R33, R126: the configuration inputs, the sample table, the arithmetic and the transform are constant between resets; after a
reset the configuration inputs and the sample table are what the platform then presents (R121). (That the arithmetic and the transform
are so too, and the form of both, parameters in the state and a list of host actions, is the model's: log 1, log 13.) -/
def Obligations.ParametersAreConstantAlongARun : Prop :=
  (∀ (k : Nat) (s t : State), (∀ p, .reset p ∉ s.host) → core.run k s = .next t → t.platform = s.platform) ∧
  ∀ (k : Nat) (s t : State), core.run k s = .next t → t.platform = s.platform ∨ .reset t.platform ∈ s.host

/-! ## The invariant of every run -/

/-- The invariant holds of the reset state. -/
def Obligations.ResetStateMeetsTheInvariant : Prop := RunInv State.reset

/-- It holds after a reset on every platform whose sample table is in canonical form, whatever the configuration, and whatever the host
still does, as long as the tables of coming resets are in canonical form too. -/
def Obligations.EveryResetMeetsTheInvariant : Prop :=
  ∀ (p : Platform Sample) (h : List (HostAction Sample)), p.src.wf = true → (∀ q, .reset q ∈ h → q.src.wf = true) →
    RunInv (State.afterReset p h)

/-- Every step keeps it: the phase stays one of the twelve codes, `FAULT` and `CAUSE` say what the configuration check found,
the indicator lines stay legal, and dark without a passed check, `0 ≤ CURSOR < L`, the tables stay what startup made them, every buffer
keeps its `N` elements, `KSTAR < N/2`, and nothing is read before it is written. -/
def Obligations.StepKeepsTheInvariant : Prop :=
  ∀ s t : State, RunInv s → step s = .next t → RunInv t

/-- R30's law: no operation of a run reads a storage that holds no value. -/
def Obligations.NoRunReadsAnUnwrittenStorage : Prop :=
  ∀ (s : State) (i : Instr), RunInv s → decode s.phase = .ok i → readsWritten i s = true

/-- R106: in a run no operation can fail at runtime: under power, every step answers a next state, but for a `PEAK` on a spectrum outside the
premise of R91. -/
def Obligations.NoOperationOfARunFails : Prop :=
  ∀ s : State, RunInv s → (∀ r, s.host ≠ .powerOff :: r) →
    (s.phase = 0x7#4 → finiteSpectrum s.arith s.bins = true) → ∃ t, step s = .next t

/-! ## Cycles -/

/-- R105: one cycle, from `FETCH` back to `FETCH`, is the composition of the stages on the slice at the cursor; it moves the cursor by `N`
modulo `L`, drives its Band onto the lines and makes exactly one `EMIT` event. -/
def Obligations.OneCycleComposesTheStages : Prop :=
  ∀ s : State, RunInv s → s.phase = 0x3#4 → s.host = [] → cycleFinite s.platform s.cursor = true →
    ∃ t, core.run 8 s = .next t ∧ t.phase = 0x3#4 ∧ t.cursor = (s.cursor + s.platform.n) % s.platform.l ∧
      t.kstar = cyclePeak s.platform s.cursor ∧ t.band = cycleBand s.platform s.cursor ∧
      t.ind = onehot (cycleBand s.platform s.cursor) ∧
      t.frame = cycleFrame s.platform s.cursor ∧
      t.specRe = (cycleSpectrum s.platform s.cursor).map Prod.fst ∧
      t.specIm = (cycleSpectrum s.platform s.cursor).map Prod.snd ∧
      t.win = s.win ∧ t.tw = s.tw ∧ t.fault = false ∧ t.cause = 0#3 ∧ t.platform = s.platform ∧
      emits 8 s = [cycleBand s.platform s.cursor]

/-- R105, R98: `m` cycles make `m` `EMIT` events; the Band of the `j`-th is the one of the slice at `(c + j·N) mod L`, a function of `SRC`,
the parameters and `j` alone. -/
def Obligations.BandsOfARunAreAFunctionOfTheSlices : Prop :=
  ∀ (m : Nat) (s : State), RunInv s → s.phase = 0x3#4 → s.host = [] →
    (∀ j, j < m → cycleFinite s.platform ((s.cursor + j * s.platform.n) % s.platform.l) = true) →
    ∃ t, core.run (8 * m) s = .next t ∧ t.phase = 0x3#4 ∧
      t.cursor = (s.cursor + m * s.platform.n) % s.platform.l ∧
      emits (8 * m) s =
        (List.range m).map fun j => cycleBand s.platform ((s.cursor + j * s.platform.n) % s.platform.l)

/-- R105, R60: `RUN m` from reset, on every platform that passes the check: startup and `m` cycles, whose `m` `EMIT` events carry the
Bands of the slices at `(j·N) mod L`; the block is then at the next `FETCH`, with the lines of the last Band. -/
def Obligations.RunFromResetEmitsTheBandsOfTheSlices : Prop :=
  ∀ (p : Platform Sample) (m : Nat), p.src.wf = true → configError p = none →
    (∀ j, j < m → cycleFinite p (j * p.n % p.l) = true) →
    ∃ t, core.run (initSteps + m * cycleSteps) (State.afterReset p []) = .next t ∧ t.phase = 0x3#4 ∧
      t.cursor = m * p.n % p.l ∧ t.fault = false ∧
      (m = 0 → t.ind = 0b000#3) ∧ (∀ j, m = j + 1 → t.ind = onehot (cycleBand p (j * p.n % p.l))) ∧
      emits (initSteps + m * cycleSteps) (State.afterReset p []) =
        (List.range m).map fun j => cycleBand p (j * p.n % p.l)

/-- R105: the only information one cycle passes to the next is `CURSOR`: from two states of runs on the same platform with the same cursor,
whatever else they hold, a cycle ends in the same state, in everything. -/
def Obligations.OnlyTheCursorPassesBetweenCycles : Prop :=
  ∀ s u : State, RunInv s → RunInv u → s.phase = 0x3#4 → u.phase = 0x3#4 → s.host = [] → u.host = [] →
    s.platform = u.platform → s.cursor = u.cursor → core.run 8 s = core.run 8 u

/-- R114: silence is no error: a cycle over zero samples raises nothing and gives `KSTAR = 0`, Low and the Low line, for every
arithmetic and transform with the zero properties. (What counts as a zero of the carrier is the model's choice: log 23.) -/
def Obligations.SilenceIsLowEveryCycle : Prop :=
  ∀ s : State, RunInv s → s.phase = 0x3#4 → s.host = [] → s.arith.ZeroLaws → s.transform.XfZero s.arith →
    (∀ i, i < s.platform.n → s.arith.finite (s.arith.wcoef s.platform.n i) = true) →
    (∀ a, a < s.platform.l → s.arith.isZero (s.platform.src.read a) = true) →
    ∃ t, core.run 8 s = .next t ∧ t.kstar = 0 ∧ t.band = .low ∧ t.ind = 0b001#3 ∧ t.fault = false ∧ t.cause = 0#3

/-! ## The arithmetic -/

/-- R80: `Arith.real` has all the named properties, and its coefficients are the formula's own. (What counts as a zero of a
carrier, and as not less than zero, is the model's: log 23. The root of a negative number, which no rule takes: log 24.) -/
def Obligations.RealArithmeticHasTheNamedProperties : Prop :=
  Reference.real.GtOrder ∧ Reference.real.ZeroNotGt ∧ Reference.real.MulZero ∧ Reference.real.AddZero ∧
  Reference.real.SqrtZero ∧ Reference.real.SqrtMono ∧ Reference.real.NonNeg ∧
  Reference.WcoefClose Reference.real (fun v => v) 0

/-- R80, G2: the binary32 of this model, rounding included, has the named properties: a weakly monotone square root, squares, sums and
roots that are not negative, a strict weak order on finite values, and the four properties of zeros. (The model's own arithmetic:
log 4, log 5. What counts as a zero, and as not less than zero, is the model's too: log 23.) -/
def Obligations.BinaryThirtyTwoRootIsMonotone : Prop :=
  Binary32.arith.SqrtMono ∧ Binary32.arith.NonNeg ∧ Binary32.arith.GtOrder ∧ Binary32.arith.ZeroNotGt ∧
  Binary32.arith.MulZero ∧ Binary32.arith.AddZero ∧ Binary32.arith.SqrtZero

/-- R65's `WCOEF_CLOSE` for the binary32 of this model, with the bound U2 suggests, `2^-20`, for every frame size and every index. (The
evaluation is the model's own: log 6.) -/
def Obligations.BinaryThirtyTwoWindowIsClose : Prop :=
  Reference.WcoefClose Binary32.arith (fun v => (Reference.valueOf v : ℝ)) (2 ^ (-20 : ℤ))

/-! ## The sample table, and other carriers -/

/-- R37, R39, R42: `MemRead(a, 1)` is `SRC[a]`: a table put in place from its samples reads, at each element address, as that sample. A
table in canonical form reads as the value it lists, an address it does not list reads as the zero word, and equal contents are
equal tables. (The list form and what an unlisted address reads as are the model's: log 10.) -/
def Obligations.SampleTableReadsAsItsSamples : Prop :=
  (∀ (xs : List Sample) (a : Nat), (∀ h : a < xs.length, (Memory.ofSamples 0 xs).read a = xs[a]) ∧
    (xs.length ≤ a → (Memory.ofSamples 0 xs).read a = 0x00000000#32) ∧ (Memory.ofSamples 0 xs).wf = true) ∧
  (∀ (m : Memory Sample) (a : Nat) (v : Sample), m.wf = true → (a, v) ∈ m → m.read a = v) ∧
  (∀ (m : Memory Sample) (a : Nat), (∀ v, (a, v) ∉ m) → m.read a = 0x00000000#32) ∧
  (∀ m k : Memory Sample, m.wf = true → k.wf = true → (∀ a, m.read a = k.read a) → m = k)

/-- R10, R33, R105: the block takes its carrier, its arithmetic and its transform as arguments, and does with any of them what the rules
say. On every platform that passes the check, startup and `m` cycles leave the tables of `wcoef` and `XfInit`, the cursor at
`(m·N) mod L`, and in the buffers and registers the stages of the last cycle; the `EMIT` events carry the Bands of the slices. -/
def Obligations.TheBlockRunsOverAnyCarrier : Prop :=
  ∀ (V : Type) [Inhabited V] (a : Block.Numerics V) (p : Platform V) (m : Nat), configError p = none →
    (∀ j, j < m → Block.cycleFinite a p (j * p.n % p.l) = true) →
    ∃ t : Block.State V,
      (Block.core a p).run (initSteps + m * cycleSteps) (Block.State.afterReset p []) = .next t ∧
      t.phase = 0x3#4 ∧ t.cursor = m * p.n % p.l ∧ t.fault = false ∧ t.cause = 0#3 ∧ t.platform = p ∧
      t.win = windowTable (a.arith p.arith) p.n ∧ t.tw = (a.transform p.xf).init p.n ∧
      (m = 0 → t.ind = 0b000#3) ∧
      (∀ j, m = j + 1 →
        t.frame = Block.cycleFrame a p (j * p.n % p.l) ∧
        t.specRe = (Block.cycleSpectrum a p (j * p.n % p.l)).map Prod.fst ∧
        t.specIm = (Block.cycleSpectrum a p (j * p.n % p.l)).map Prod.snd ∧
        t.kstar = Block.cyclePeak a p (j * p.n % p.l) ∧ t.band = Block.cycleBand a p (j * p.n % p.l) ∧
        t.ind = onehot (Block.cycleBand a p (j * p.n % p.l))) ∧
      emitsOf (Block.step a) (initSteps + m * cycleSteps) (Block.State.afterReset p []) =
        (List.range m).map fun j => Block.cycleBand a p (j * p.n % p.l)
end

