-- ==== Sys2Proof/Laws/Flags.lean ====
section
/-! SUPPORT. The conditions of a configuration error in the words of R107 and R108. -/

namespace Sys2Proof.Machine

theorem isPow2_iff (n : Nat) : isPow2 n = true ↔ ∃ m, n = 2 ^ m := by
  constructor
  · intro h
    exact ⟨n.log2, (of_decide_eq_true h).symm⟩
  · rintro ⟨m, rfl⟩
    simp [isPow2]

theorem anyBin_iff (p : Nat → Bool) (c k : Nat) :
    anyBin p c k = true ↔ ∃ j, k ≤ j ∧ j < k + c ∧ p j = true := by
  induction c generalizing k with
  | zero => simp [anyBin]; omega
  | succ c ih =>
    simp only [anyBin, Bool.or_eq_true, ih]
    constructor
    · rintro (h | ⟨j, h1, h2, h3⟩)
      · exact ⟨k, le_rfl, by omega, h⟩
      · exact ⟨j, by omega, by omega, h3⟩
    · rintro ⟨j, h1, h2, h3⟩
      rcases Nat.eq_or_lt_of_le h1 with rfl | hlt
      · exact .inl h3
      · exact .inr ⟨j, hlt, by omega, h3⟩

theorem hasMid_iff (fs n : Nat) :
    hasMid fs n = true ↔ ∃ k < n / 2, 500 * n ≤ k * fs ∧ k * fs < 2000 * n := by
  simp only [hasMid, anyBin_iff, Bool.and_eq_true, decide_eq_true_eq]
  simp [Config.loHz, Config.hiHz]

theorem hasHigh_iff (fs n : Nat) :
    hasHigh fs n = true ↔ ∃ k < n / 2, 2000 * n ≤ k * fs := by
  simp only [hasHigh, anyBin_iff, decide_eq_true_eq]
  simp [Config.hiHz]

theorem configError_eq_none_iff {V : Type} (p : Platform V) :
    configError p = none ↔
      isPow2 p.n = true ∧ p.xfN = p.n ∧ degenerate p.fs p.n = false ∧ p.l ≠ 0 := by
  unfold configError
  split_ifs <;> simp_all

/-- A configuration that passes has a Sample Source and at least eight bins, four of them scanned (R123). -/
theorem configError_none_bounds {V : Type} {p : Platform V} (h : configError p = none) :
    0 < p.l ∧ 3 ≤ p.n / 2 := by
  obtain ⟨-, -, hd, hl⟩ := (configError_eq_none_iff p).mp h
  refine ⟨Nat.pos_of_ne_zero hl, ?_⟩
  simp only [degenerate, Bool.or_eq_false_iff, Bool.not_eq_false'] at hd
  obtain ⟨j, -, h1, h2⟩ := (hasMid_iff _ _).mp hd.1
  obtain ⟨k, hk, h3⟩ := (hasHigh_iff _ _).mp hd.2
  have hjk : j < k := Nat.lt_of_mul_lt_mul_right (h2.trans_le h3)
  have hn : 0 < p.n := by omega
  have hj : 0 < j := by
    rcases Nat.eq_zero_or_pos j with rfl | hj
    · simp at h1; omega
    · exact hj
  omega

/-- The codes of the causes are distinct, so `CAUSE` tells the error (R56). -/
theorem causeCode_injective {a b : Option ConfigError} (h : causeCode a = causeCode b) : a = b := by
  rcases a with _ | a <;> rcases b with _ | b <;> (try cases a) <;> (try cases b) <;> first | rfl | exact absurd h (by decide)

@[simp] theorem indWf_onehot (b : Band) : indWf (onehot b) = true := by
  cases b <;> rfl

@[simp] theorem bandOfCode_bandCode (b : Band) : bandOfCode (bandCode b) = some b := by
  cases b <;> rfl

end Sys2Proof.Machine
end

