-- ==== Sys2Proof/Laws/Binary32.lean ====
section
/-! SUPPORT. Binary32: signs and magnitudes, the order, how zeros behave, and that coefficients are finite. -/

namespace Sys2Proof.Machine.Binary32

/-! ## Words -/

theorem magPat_pack (neg : Bool) {p : Nat} (h : p < 2 ^ 31) : magPat (pack neg p) = p := by
  cases neg <;> simp [magPat, pack, BitVec.toNat_ofNat] <;> omega

theorem msb_pack (neg : Bool) {p : Nat} (h : p < 2 ^ 31) : (pack neg p).msb = neg := by
  cases neg <;> simp [pack, BitVec.msb_eq_decide, BitVec.toNat_ofNat] <;> omega

theorem magPat_lt (x : Sample) : magPat x < 2 ^ 31 := Nat.mod_lt _ (by decide)

/-- A word is its sign and its magnitude pattern. -/
theorem pack_msb_magPat (x : Sample) : pack x.msb (magPat x) = x := by
  apply BitVec.eq_of_toNat_eq
  have hx := x.isLt
  by_cases h : 2 ^ 31 ≤ x.toNat
  · have hm : x.msb = true := by simp [BitVec.msb_eq_decide]; omega
    simp [pack, magPat, hm, BitVec.toNat_ofNat]; omega
  · have hm : x.msb = false := by simp [BitVec.msb_eq_decide]; omega
    simp [pack, magPat, hm, BitVec.toNat_ofNat]; omega

theorem magPat_flip (x : Sample) : magPat (x ^^^ 0x80000000#32) = magPat x := by
  have h31 : (0x80000000#32).toNat = 2 ^ 31 := by decide
  unfold magPat
  rw [BitVec.toNat_xor, h31]
  apply Nat.eq_of_testBit_eq
  intro i
  rw [Nat.testBit_mod_two_pow, Nat.testBit_mod_two_pow, Nat.testBit_xor]
  by_cases hi : i < 31
  · rw [Nat.testBit_two_pow_of_ne (by omega), Bool.xor_false]
  · simp [hi]

theorem not_isNaN_of_finite {x : Sample} (h : finite x = true) : isNaN x = false := by
  simp only [finite, isNaN, decide_eq_true_eq, decide_eq_false_iff_not] at *; omega

theorem not_isInf_of_finite {x : Sample} (h : finite x = true) : isInf x = false := by
  simp only [finite, isInf, decide_eq_true_eq, decide_eq_false_iff_not] at *; omega

/-! ## The order -/

theorem gt_of_finite {a b : Sample} (ha : finite a = true) (hb : finite b = true) :
    gt a b = decide (key b < key a) := by
  simp [gt, not_isNaN_of_finite ha, not_isNaN_of_finite hb]

theorem gtOrder : arith.GtOrder := by
  refine ⟨fun a ha => ?_, fun a b c ha hb hc h1 h2 => ?_, fun a b c ha hb hc h1 h2 h3 h4 => ?_⟩ <;>
    simp only [arith] at * <;>
    simp only [gt_of_finite, *, decide_eq_true_eq, decide_eq_false_iff_not] at * <;> omega

/-- The zeros are the two words whose magnitude pattern is zero. -/
theorem isZero_iff (x : Sample) : arith.isZero x = true ↔ magPat x = 0 := by
  have hz : finite 0x00000000#32 = true := by decide
  have hk : key 0x00000000#32 = 0 := by decide
  constructor
  · intro h
    simp only [Arith.isZero, arith, Bool.and_eq_true, Bool.not_eq_true'] at h
    obtain ⟨⟨hf, h1⟩, h2⟩ := h
    rw [gt_of_finite hf hz, hk, decide_eq_false_iff_not] at h1
    rw [gt_of_finite hz hf, hk, decide_eq_false_iff_not] at h2
    unfold key at h1 h2
    split at h1 <;> simp_all
  · intro h
    have hf : finite x = true := by simp [finite, h, infPat]
    simp only [Arith.isZero, arith, Bool.and_eq_true, Bool.not_eq_true']
    rw [gt_of_finite hf hz, gt_of_finite hz hf, hk]
    simp [hf, key, h]

theorem finite_of_isZero {x : Sample} (h : arith.isZero x = true) : finite x = true := by
  simp [finite, (isZero_iff x).mp h, infPat]

/-! ## Rounding -/

theorem roundPat_le (num d : Nat) : roundPat num d ≤ infPat := Nat.min_le_right _ _

theorem roundPat_lt (num d : Nat) : roundPat num d < 2 ^ 31 :=
  (roundPat_le num d).trans_lt (by decide)

@[simp] theorem roundPat_zero (d : Nat) : roundPat 0 d = 0 := by
  have h : 0 < 2 ^ d := by positivity
  have h' : (0 : Nat) ≠ 2 ^ d := h.ne
  simp [roundPat, h', infPat]

/-- The significand of a rounded value has at most 24 bits, so the pattern exceeds its exponent part by at most `2^24`. -/
theorem roundPat_le_of_log2 (num d : Nat) : roundPat num d ≤ (num.log2 - (23 + d)) * 2 ^ 23 + 2 ^ 24 := by
  have hm : num / 2 ^ (num.log2 - (23 + d) + d) < 2 ^ 24 := by
    rw [Nat.div_lt_iff_lt_mul (by positivity), ← pow_add]
    exact Nat.lt_log2_self.trans_le (Nat.pow_le_pow_right (by decide) (by omega))
  unfold roundPat
  refine (Nat.min_le_left _ _).trans ?_
  split <;> omega

theorem finite_pack_roundPat (neg : Bool) {num d : Nat} (h : num.log2 ≤ 250 + d) :
    finite (pack neg (roundPat num d)) = true := by
  have h1 := roundPat_le_of_log2 num d
  rw [finite, decide_eq_true_eq, magPat_pack neg (roundPat_lt num d)]
  have : num.log2 - (23 + d) ≤ 227 := by omega
  unfold infPat
  omega

/-! ## Zeros (R80) -/

theorem isZero_pack_zero (neg : Bool) : arith.isZero (pack neg 0) = true :=
  (isZero_iff _).mpr (magPat_pack neg (by decide))

theorem zeroNotGt : arith.ZeroNotGt := by
  intro y z hy hz
  have h1 := finite_of_isZero hy
  have h2 := finite_of_isZero hz
  rw [isZero_iff] at hy hz
  simp [arith, gt_of_finite h1 h2, key, hy, hz]

theorem mulZero : arith.MulZero := by
  intro z x hz hx
  have hzf := finite_of_isZero hz
  rw [isZero_iff] at hz
  have hx' : finite x = true := hx
  constructor <;>
    simp only [arith, mul, not_isNaN_of_finite hzf, not_isNaN_of_finite hx', not_isInf_of_finite hzf,
      not_isInf_of_finite hx', hz, Bool.or_self, Bool.false_eq_true, if_false, units, Nat.ofNat_pos, pow_pos, if_true,
      Nat.zero_mul, Nat.mul_zero, roundPat_zero] <;>
    exact isZero_pack_zero _

theorem value_of_magPat_zero {x : Sample} (h : magPat x = 0) : value x = 0 := by
  simp [value, h, units]

theorem addZero : arith.AddZero := by
  intro y z hy hz
  have hyf := finite_of_isZero hy
  have hzf := finite_of_isZero hz
  rw [isZero_iff] at hy hz
  simp only [arith, add, not_isNaN_of_finite hyf, not_isNaN_of_finite hzf, not_isInf_of_finite hyf,
    not_isInf_of_finite hzf, value_of_magPat_zero hy, value_of_magPat_zero hz, Bool.or_self, Bool.false_eq_true, if_false,
    add_zero, if_true]
  exact isZero_pack_zero _

theorem sqrtZero : arith.SqrtZero := by
  intro z hz
  have hzf := finite_of_isZero hz
  have h := (isZero_iff z).mp hz
  simpa only [arith, sqrt, not_isNaN_of_finite hzf, Bool.false_eq_true, if_false, h, if_true] using hz

theorem zeroLaws : arith.ZeroLaws := ⟨zeroNotGt, mulZero, addZero, sqrtZero⟩

/-! ## The coefficients are finite -/

theorem cosNest_le (x2 t m : Nat) : cosNest x2 t m ≤ one := by
  cases t <;> simp [cosNest]

theorem cosTurn_le (num den : Nat) : (cosTurn num den).2 ≤ one := by
  unfold cosTurn
  simp only
  split_ifs
  · exact cosNest_le _ _ _
  · exact Nat.zero_le _
  · exact cosNest_le _ _ _

theorem finite_ofFix (neg : Bool) {v : Nat} (h : v ≤ one) : finite (ofFix neg v) = true := by
  refine finite_pack_roundPat neg ?_
  have h1 : v * 2 ^ 149 < 2 ^ 246 := by
    calc v * 2 ^ 149 ≤ 2 ^ 96 * 2 ^ 149 := Nat.mul_le_mul_right _ h
      _ < 2 ^ 246 := by decide
  rcases Nat.eq_zero_or_pos (v * 2 ^ 149) with h0 | h0
  · rw [h0]; simp
  · have := (Nat.log2_lt h0.ne').mpr h1
    simp only [fracBits]; omega

/-- A window coefficient is finite wherever the window formula has a value (R64). -/
theorem finite_wcoef {n : Nat} (hn : 2 ≤ n) (i : Nat) : finite (wcoef n i) = true := by
  have hc := cosTurn_le i (n - 1)
  rw [wcoef, if_neg (by omega)]
  split <;> next h => exact finite_ofFix false (by rw [h] at hc; simp only at hc; omega)

end Sys2Proof.Machine.Binary32

namespace Sys2Proof.Machine.ReferenceTransform

open Binary32

theorem lengthOk_pow {m : Nat} (hm : 1 ≤ m) : lengthOk (2 ^ m) = true := by
  have h2 : 2 ≤ 2 ^ m := Nat.le_self_pow (by omega) 2
  simp [lengthOk, h2, (isPow2_iff _).mpr ⟨m, rfl⟩]

/-- On the lengths `XF_TOTAL` names, `XfInit` is the table (R74). -/
theorem init_pow {m : Nat} (hm : 1 ≤ m) : init (2 ^ m) = table (2 ^ m) := by
  rw [init, if_pos (lengthOk_pow hm)]

/-- Within the contract of R74 the reference transform is the discrete Fourier transform. -/
theorem run_init {m : Nat} (hm : 1 ≤ m) {x : List Sample} (hx : x.length = 2 ^ m) (hf : ∀ v ∈ x, finite v = true)
    (k : Nat) : run (init (2 ^ m)) x k = dft (init (2 ^ m)) x k := by
  have hc : covers (init (2 ^ m)) x = true := by
    simpa [covers, hx, lengthOk_pow hm, init_pow hm] using hf
  rw [run, if_pos hc]

theorem finite_table {n : Nat} : ∀ v ∈ table n, finite v = true := by
  intro v hv
  simp only [table, sinEntry, cosEntry, List.mem_append, List.mem_map] at hv
  rcases hv with ⟨m, -, rfl⟩ | ⟨m, -, rfl⟩ <;> exact finite_ofFix _ (cosTurn_le _ _)

theorem finite_flip {c : Sample} (h : finite c = true) : finite (c ^^^ 0x80000000#32) = true := by
  simpa [finite, magPat_flip] using h

theorem dot_zero {tw : Array Sample} (htw : ∀ v ∈ tw, finite v = true) (off n k : Nat) (neg : Bool) (x : List Sample)
    (hx : ∀ v ∈ x, arith.isZero v = true) (i : Nat) (acc : Sample) (hacc : arith.isZero acc = true) :
    arith.isZero (dot tw off n k neg x i acc) = true := by
  induction x generalizing i acc with
  | nil => exact hacc
  | cons v xs ih =>
    have hc : finite (tw.getD (off + k * i % n) 0#32) = true := by
      rw [Array.getD_eq_getD_getElem?]
      rcases h : tw[off + k * i % n]? with _ | c
      · rfl
      · exact htw c (Array.mem_of_getElem? h)
    refine ih (fun w hw => hx w (by simp [hw])) _ _ (addZero _ _ hacc (mulZero _ _ (hx v (by simp)) ?_).1)
    cases neg
    · exact hc
    · exact finite_flip hc

/-- The reference transform maps zeros to zeros (R74, `XF_ZERO`). -/
theorem xfZero : transform.XfZero arith := by
  intro m x hm hlen hx k _
  have htw : ∀ v ∈ (init (2 ^ m)).toArray, finite v = true := by
    intro v hv
    rw [init_pow hm] at hv
    exact finite_table v (List.mem_toArray.mp hv)
  show arith.isZero (run (init (2 ^ m)) x k).1 = true ∧ arith.isZero (run (init (2 ^ m)) x k).2 = true
  rw [run_init hm hlen fun v hv => finite_of_isZero (hx v hv)]
  exact ⟨dot_zero htw _ _ _ _ x hx _ _ rfl, dot_zero htw _ _ _ _ x hx _ _ rfl⟩

end Sys2Proof.Machine.ReferenceTransform
end

