-- ==== Sys2Proof/Laws/Rounding.lean ====
section
/-! SUPPORT. Rounding in binary32: it is monotone, it is within half a unit in the last place, and the integer square
root is the floor of the square root. -/

namespace Sys2Proof.Machine.Binary32

/-! ## Rounding is monotone and within half a place -/

/-- The integer significand `roundPat` rounds to, before it saturates. -/
theorem roundPat_eq (num d : Nat) :
    ∃ m up, up ≤ 1 ∧ roundPat num d = min ((num.log2 - (23 + d)) * 2 ^ 23 + (m + up)) infPat ∧
      m = num / 2 ^ (num.log2 - (23 + d) + d) ∧ m < 2 ^ 24 ∧ (1 ≤ num.log2 - (23 + d) → 2 ^ 23 ≤ m) ∧
      2 * ((m + up) * 2 ^ (num.log2 - (23 + d) + d)) ≤ 2 * num + 2 ^ (num.log2 - (23 + d) + d) ∧
      2 * num ≤ 2 * ((m + up) * 2 ^ (num.log2 - (23 + d) + d)) + 2 ^ (num.log2 - (23 + d) + d) ∧
      (up = 1 ↔ 2 ^ (num.log2 - (23 + d) + d) < 2 * (num % 2 ^ (num.log2 - (23 + d) + d)) ∨
        (2 * (num % 2 ^ (num.log2 - (23 + d) + d)) = 2 ^ (num.log2 - (23 + d) + d) ∧ m % 2 = 1)) := by
  have hm : num / 2 ^ (num.log2 - (23 + d) + d) < 2 ^ 24 := by
    rw [Nat.div_lt_iff_lt_mul (by positivity), ← pow_add]
    exact Nat.lt_log2_self.trans_le (Nat.pow_le_pow_right (by decide) (by omega))
  have hm' : 1 ≤ num.log2 - (23 + d) → 2 ^ 23 ≤ num / 2 ^ (num.log2 - (23 + d) + d) := by
    intro h
    have h0 : num ≠ 0 := by rintro rfl; simp at h
    rw [Nat.le_div_iff_mul_le (by positivity), ← pow_add]
    exact (Nat.pow_le_pow_right (by decide) (by omega)).trans (Nat.log2_self_le h0)
  have hs : 0 < 2 ^ (num.log2 - (23 + d) + d) := by positivity
  unfold roundPat
  simp only
  generalize hS : 2 ^ (num.log2 - (23 + d) + d) = s at *
  generalize num.log2 - (23 + d) = q at *
  have hdm := Nat.div_add_mod num s
  have hlt := Nat.mod_lt num hs
  rw [Nat.mul_comm] at hdm
  generalize num / s = m at *
  generalize num % s = r at *
  refine ⟨m, if decide (s < 2 * r) || (decide (2 * r = s) && decide (m % 2 = 1)) then 1 else 0, ?_, ?_, rfl, hm, hm', ?_, ?_, ?_⟩
  · split <;> omega
  · rw [Nat.add_assoc]
  all_goals
    split
    · next h =>
      simp only [Bool.or_eq_true, Bool.and_eq_true, decide_eq_true_eq] at h
      first | (rw [Nat.add_mul]; omega) | simp [h]
    · next h =>
      simp only [Bool.or_eq_true, Bool.and_eq_true, decide_eq_true_eq] at h
      first | (rw [Nat.add_zero]; omega) | simp [h]

/-- Rounding is weakly monotone. -/
theorem roundPat_mono {a b : Nat} (d : Nat) (h : a ≤ b) : roundPat a d ≤ roundPat b d := by
  obtain ⟨m, u, hu, he, hm, hlt, -, -, -, hup⟩ := roundPat_eq a d
  obtain ⟨m', u', hu', he', hm', hlt', hge', -, -, hup'⟩ := roundPat_eq b d
  rw [he, he']
  have hlog : a.log2 ≤ b.log2 := by
    rcases Nat.eq_zero_or_pos a with rfl | ha
    · simp
    · exact (Nat.le_log2 (by omega)).2 ((Nat.log2_self_le ha.ne').trans h)
  refine min_le_min_right _ ?_
  rcases Nat.lt_or_ge (a.log2 - (23 + d)) (b.log2 - (23 + d)) with hq | hq
  · have := hge' (by omega)
    have : (a.log2 - (23 + d) + 1) * 2 ^ 23 ≤ (b.log2 - (23 + d)) * 2 ^ 23 := Nat.mul_le_mul_right _ hq
    omega
  · have hq' : a.log2 - (23 + d) = b.log2 - (23 + d) := by omega
    rw [hq'] at hm hup ⊢
    have hmm : m ≤ m' := hm ▸ hm' ▸ Nat.div_le_div_right h
    rcases hmm.lt_or_eq with hlt | heq
    · omega
    · have hr : a % 2 ^ (b.log2 - (23 + d) + d) ≤ b % 2 ^ (b.log2 - (23 + d) + d) := by
        have h1 := Nat.div_add_mod a (2 ^ (b.log2 - (23 + d) + d))
        have h2 := Nat.div_add_mod b (2 ^ (b.log2 - (23 + d) + d))
        rw [← hm, heq] at h1; rw [← hm'] at h2; omega
      rw [heq] at hup
      have : u = 1 → u' = 1 := by
        rw [hup, hup']
        rintro (h | ⟨h, h'⟩)
        · left; omega
        · rcases hr.lt_or_eq with h1 | h1
          · left; omega
          · right; exact ⟨h1 ▸ h, h'⟩
      omega

/-- A pattern with exponent part `q` and significand `m`. -/
theorem units_of_parts {q m : Nat} (h : m ≤ 2 ^ 24) (hq : 1 ≤ q → 2 ^ 23 ≤ m) : units (q * 2 ^ 23 + m) = m * 2 ^ q := by
  unfold units
  rcases Nat.eq_zero_or_pos q with rfl | hq0
  · rcases Nat.lt_or_ge m (2 ^ 23) with h1 | h1
    · rw [if_pos (by omega)]; simp
    · rcases h.lt_or_eq with h2 | h2
      · rw [if_neg (by omega)]
        have e1 : (0 * 2 ^ 23 + m) % 2 ^ 23 = m - 2 ^ 23 := by omega
        have e2 : (0 * 2 ^ 23 + m) / 2 ^ 23 = 1 := by omega
        rw [e1, e2]; omega
      · subst h2; decide
  · have h1 := hq hq0
    rw [if_neg (by omega)]
    rcases h.lt_or_eq with h2 | h2
    · have e1 : (q * 2 ^ 23 + m) % 2 ^ 23 = m - 2 ^ 23 := by omega
      have e2 : (q * 2 ^ 23 + m) / 2 ^ 23 - 1 = q := by omega
      rw [e1, e2]; congr 1; omega
    · subst h2
      have e1 : (q * 2 ^ 23 + 2 ^ 24) % 2 ^ 23 = 0 := by omega
      have e2 : (q * 2 ^ 23 + 2 ^ 24) / 2 ^ 23 - 1 = q + 1 := by omega
      rw [e1, e2, pow_succ]; omega

/-- A larger pattern has at least as many units. -/
theorem units_mono {p p' : Nat} (h : p ≤ p') : units p ≤ units p' := by
  unfold units
  split_ifs with h1 h2 h2
  · exact h
  · have : 1 ≤ 2 ^ (p' / 2 ^ 23 - 1) := Nat.one_le_two_pow
    have := Nat.mul_le_mul_left (p' % 2 ^ 23 + 2 ^ 23) this
    omega
  · omega
  · have hd : p / 2 ^ 23 ≤ p' / 2 ^ 23 := Nat.div_le_div_right h
    rcases hd.lt_or_eq with hd | hd
    · calc (p % 2 ^ 23 + 2 ^ 23) * 2 ^ (p / 2 ^ 23 - 1) ≤ 2 ^ 24 * 2 ^ (p / 2 ^ 23 - 1) :=
            Nat.mul_le_mul_right _ (by omega)
        _ = 2 ^ 23 * 2 ^ (p / 2 ^ 23) := by rw [← pow_add, ← pow_add]; congr 1; omega
        _ ≤ 2 ^ 23 * 2 ^ (p' / 2 ^ 23 - 1) := Nat.mul_le_mul_left _ (Nat.pow_le_pow_right (by decide) (by omega))
        _ ≤ _ := Nat.mul_le_mul_right _ (by omega)
    · rw [hd]; exact Nat.mul_le_mul_right _ (by omega)

/-- Where it does not saturate, the rounded value is within half a unit in its last place. -/
theorem units_roundPat_close {num d q : Nat} (hq : num.log2 - (23 + d) ≤ q) (hq' : q ≤ 200) :
    2 * (units (roundPat num d) * 2 ^ d) ≤ 2 * num + 2 ^ (q + d) ∧
    2 * num ≤ 2 * (units (roundPat num d) * 2 ^ d) + 2 ^ (q + d) := by
  obtain ⟨m, u, hu, he, -, hlt, hge, h1, h2, -⟩ := roundPat_eq num d
  generalize num.log2 - (23 + d) = e at *
  have hmin : min (e * 2 ^ 23 + (m + u)) infPat = e * 2 ^ 23 + (m + u) := by
    unfold infPat; omega
  have hmu : m + u ≤ 2 ^ 24 := by omega
  have hmu' : 1 ≤ e → 2 ^ 23 ≤ m + u := fun h => (hge h).trans (by omega)
  rw [he, hmin, units_of_parts hmu hmu']
  have hp : 2 ^ (e + d) ≤ 2 ^ (q + d) := Nat.pow_le_pow_right (by decide) (by omega)
  rw [Nat.mul_assoc, ← pow_add]
  omega

/-! ## The integer square root -/

theorem isqrtFrom_spec (n b : Nat) : ∀ r, r * r ≤ n → n < (r + 2 ^ b) * (r + 2 ^ b) →
    isqrtFrom n b r * isqrtFrom n b r ≤ n ∧ n < (isqrtFrom n b r + 1) * (isqrtFrom n b r + 1) := by
  induction b with
  | zero => intro r h1 h2; exact ⟨h1, by simpa [isqrtFrom] using h2⟩
  | succ b ih =>
    intro r h1 h2
    unfold isqrtFrom
    split
    · next h =>
      refine ih _ h ?_
      have : r + 2 ^ b + 2 ^ b = r + 2 ^ (b + 1) := by rw [pow_succ]; omega
      rwa [this]
    · next h => exact ih _ h1 (by omega)

/-- `isqrt` is the floor of the square root. -/
theorem isqrt_spec (n : Nat) : isqrt n * isqrt n ≤ n ∧ n < (isqrt n + 1) * (isqrt n + 1) := by
  refine isqrtFrom_spec n _ 0 (by simp) ?_
  rw [Nat.zero_add, ← pow_add]
  exact Nat.lt_log2_self.trans_le (Nat.pow_le_pow_right (by decide) (by omega))

theorem isqrt_mono {a b : Nat} (h : a ≤ b) : isqrt a ≤ isqrt b := by
  by_contra hc
  have h1 := (isqrt_spec a).1
  have h2 := (isqrt_spec b).2
  have : (isqrt b + 1) * (isqrt b + 1) ≤ isqrt a * isqrt a := Nat.mul_le_mul (by omega) (by omega)
  omega

/-- The number `sqrt` rounds grows with its operand: the appended bit keeps an inexact root above an exact one. -/
theorem sqrtNum_mono {a b : Nat} (h : a ≤ b) :
    2 * isqrt a + (if isqrt a * isqrt a = a then 0 else 1) ≤ 2 * isqrt b + if isqrt b * isqrt b = b then 0 else 1 := by
  have := isqrt_mono h
  have h1 := (isqrt_spec a).1
  rcases this.lt_or_eq with h2 | h2
  · split <;> split <;> omega
  · rw [h2] at h1 ⊢; split <;> split <;> omega

theorem units_lt {x : Sample} (h : finite x = true) : units (magPat x) < 2 ^ 277 := by
  have h1 : magPat x < 255 * 2 ^ 23 := by
    rw [finite, decide_eq_true_eq] at h; exact h
  have h2 : units (magPat x) ≤ units (253 * 2 ^ 23 + (2 ^ 24 - 1)) := units_mono (by omega)
  rw [units_of_parts (by norm_num) (by norm_num)] at h2
  refine h2.trans_lt ?_
  rw [show 277 = 24 + 253 from rfl, pow_add]
  exact Nat.mul_lt_mul_of_pos_right (by decide) (by positivity)

/-! ## Values not less than zero -/

theorem key_pack (neg : Bool) {p} (h : p < 2 ^ 31) : key (pack neg p) = if neg then -(p : Int) else p := by
  simp [key, msb_pack neg h, magPat_pack neg h]

/-- A value not less than zero is a zero or has a clear sign bit. -/
theorem nonneg_iff {x : Sample} : arith.nonneg x = true ↔ finite x = true ∧ (magPat x = 0 ∨ x.msb = false) := by
  have hz : finite 0x00000000#32 = true := by decide
  have hk : key 0x00000000#32 = 0 := by decide
  simp only [Arith.nonneg, arith, Bool.and_eq_true, Bool.not_eq_true']
  constructor
  · rintro ⟨h1, h2⟩
    refine ⟨h1, ?_⟩
    rw [gt_of_finite hz h1, hk, decide_eq_false_iff_not] at h2
    unfold key at h2
    cases hm : x.msb <;> simp_all
  · rintro ⟨h1, h2⟩
    refine ⟨h1, ?_⟩
    rw [gt_of_finite hz h1, hk, decide_eq_false_iff_not]
    unfold key
    rcases h2 with h2 | h2 <;> simp [h2]

end Sys2Proof.Machine.Binary32
end

