-- ==== Sys2Proof/Laws/Cosine.lean ====
section
/-! SUPPORT. The fixed-point cosine of binary32 is the cosine, to 10^-11. -/

namespace Sys2Proof.Machine.Binary32

/-! ## The nested Taylor polynomial over the real numbers -/

/-- `cosNest` with exact arithmetic. -/
noncomputable def nestReal (z : ℝ) : ℕ → ℕ → ℝ
  | 0, _ => 1
  | t + 1, m => 1 - z * nestReal z t (m + 1) / (((2 * m - 1) * (2 * m) : ℕ) : ℝ)

theorem nestReal_eq_sum (z : ℝ) (t : ℕ) : ∀ m, nestReal z t (m + 1) =
    ∑ j ∈ Finset.range (t + 1), (-1) ^ j * z ^ j * ((2 * m).factorial / (2 * m + 2 * j).factorial : ℝ) := by
  induction t with
  | zero => intro m; simp [nestReal, Nat.factorial_ne_zero]
  | succ t ih =>
    intro m
    rw [Finset.sum_range_succ', nestReal, ih (m + 1), Finset.mul_sum, Finset.sum_div]
    have hf : ((2 * (m + 1)).factorial : ℝ) = (2 * m + 2) * (2 * m + 1) * (2 * m).factorial := by
      rw [show 2 * (m + 1) = 2 * m + 1 + 1 by ring, Nat.factorial_succ, Nat.factorial_succ]; push_cast; ring
    have hk : (((2 * (m + 1) - 1) * (2 * (m + 1)) : ℕ) : ℝ) = (2 * m + 1) * (2 * m + 2) := by
      rw [show 2 * (m + 1) - 1 = 2 * m + 1 by omega]; push_cast; ring
    have h1 : (2 * (m : ℝ) + 1) ≠ 0 := by positivity
    have h2 : (2 * (m : ℝ) + 2) ≠ 0 := by positivity
    have : ∀ j ∈ Finset.range (t + 1),
        z * ((-1) ^ j * z ^ j * ((2 * (m + 1)).factorial / (2 * (m + 1) + 2 * j).factorial : ℝ)) /
          (((2 * (m + 1) - 1) * (2 * (m + 1)) : ℕ) : ℝ) =
        -((-1) ^ (j + 1) * z ^ (j + 1) * ((2 * m).factorial / (2 * m + 2 * (j + 1)).factorial : ℝ)) := by
      intro j _
      rw [hf, hk, show 2 * (m + 1) + 2 * j = 2 * m + 2 * (j + 1) by ring]
      have h3 : ((2 * m + 2 * (j + 1)).factorial : ℝ) ≠ 0 := by positivity
      field_simp
      ring
    rw [Finset.sum_congr rfl this, Finset.sum_neg_distrib]
    have h4 : ((2 * m).factorial : ℝ) ≠ 0 := by positivity
    simp [h4]
    ring

theorem re_exp_sum (x : ℝ) (k : ℕ) :
    (∑ m ∈ Finset.range (2 * k), ((x : ℂ) * Complex.I) ^ m / (m.factorial : ℂ)).re =
      ∑ j ∈ Finset.range k, (-1) ^ j * (x ^ 2) ^ j * (1 / (2 * j).factorial : ℝ) := by
  induction k with
  | zero => simp
  | succ k ih =>
    rw [show 2 * (k + 1) = 2 * k + 1 + 1 by ring, Finset.sum_range_succ, Finset.sum_range_succ, Finset.sum_range_succ,
      Complex.add_re, Complex.add_re, ih]
    have h : ((x : ℂ) * Complex.I) ^ (2 * k) = (((-1) ^ k * (x ^ 2) ^ k : ℝ) : ℂ) := by
      rw [pow_mul, mul_pow, Complex.I_sq]; push_cast; rw [mul_pow]; ring
    have e1 : (((x : ℂ) * Complex.I) ^ (2 * k) / ((2 * k).factorial : ℂ)).re =
        (-1) ^ k * (x ^ 2) ^ k * (1 / (2 * k).factorial : ℝ) := by
      rw [h, ← Complex.ofReal_natCast, ← Complex.ofReal_div, Complex.ofReal_re]; ring
    have e2 : (((x : ℂ) * Complex.I) ^ (2 * k + 1) / ((2 * k + 1).factorial : ℂ)).re = 0 := by
      have e : ((x : ℂ) * Complex.I) ^ (2 * k + 1) / ((2 * k + 1).factorial : ℂ) =
          (((-1) ^ k * (x ^ 2) ^ k * x / (2 * k + 1).factorial : ℝ) : ℂ) * Complex.I := by
        rw [pow_succ, h]; push_cast; ring
      rw [e, Complex.re_ofReal_mul, Complex.I_re, mul_zero]
    rw [e1, e2]; ring

/-- Seventeen terms of the Taylor polynomial give the cosine to far more than the fixed point keeps. -/
theorem nestReal_close {x : ℝ} (h0 : 0 ≤ x) (h : x ≤ 1.6) : |nestReal (x ^ 2) 16 1 - Real.cos x| ≤ 1e-12 := by
  have hn : ‖(x : ℂ) * Complex.I‖ = x := by simp [abs_of_nonneg h0]
  have hb := Complex.exp_bound' (x := (x : ℂ) * Complex.I) (n := 34) (by rw [hn]; norm_num; linarith)
  have hs := nestReal_eq_sum (x ^ 2) 16 0
  simp only [Nat.mul_zero, Nat.factorial_zero, Nat.zero_add, Nat.cast_one] at hs
  have hre := re_exp_sum x 17
  have hc : (Complex.exp ((x : ℂ) * Complex.I)).re = Real.cos x := Complex.exp_ofReal_mul_I_re x
  have key : nestReal (x ^ 2) 16 1 - Real.cos x =
      -(Complex.exp ((x : ℂ) * Complex.I) - ∑ m ∈ Finset.range 34, ((x : ℂ) * Complex.I) ^ m / (m.factorial : ℂ)).re := by
    rw [Complex.sub_re, hc, hre, hs]; ring
  rw [key, abs_neg]
  refine (Complex.abs_re_le_norm _).trans (hb.trans ?_)
  rw [hn]
  have : x ^ 34 ≤ 1.6 ^ 34 := pow_le_pow_left₀ h0 h 34
  calc x ^ 34 / ((34 : ℕ).factorial : ℝ) * 2 ≤ 1.6 ^ 34 / ((34 : ℕ).factorial : ℝ) * 2 := by gcongr
    _ ≤ 1e-12 := by norm_num [Nat.factorial]

/-! ## The fixed point against the real numbers -/

theorem one_pos : (0 : ℝ) < (one : ℝ) := by norm_num [one, fracBits]

/-- A floor of a quotient by `D` loses less than one. -/
theorem natDiv_close (a D : ℕ) (hD : 0 < D) : ((a / D : ℕ) : ℝ) ≤ (a : ℝ) / D ∧ (a : ℝ) / D < ((a / D : ℕ) : ℝ) + 1 := by
  have hD' : (0 : ℝ) < D := by exact_mod_cast hD
  constructor
  · rw [le_div_iff₀ hD']; exact_mod_cast Nat.div_mul_le_self a D
  · rw [div_lt_iff₀ hD']; exact_mod_cast (by rw [Nat.add_mul, Nat.one_mul]; exact Nat.lt_div_mul_add hD)

/-- One step of the nesting: what the floor loses, and what the errors of `y` and `g` contribute. -/
theorem nest_step {y g k : ℕ} {z n d e : ℝ} (hk : 0 < k) (hz : |(y : ℝ) / one - z| ≤ d) (hy : (y : ℝ) / one ≤ 3)
    (hn : |n| ≤ 1) (hg : |(g : ℝ) / one - n| ≤ e) :
    |((y * g / (one * k) : ℕ) : ℝ) / one - z * n / k| ≤ 1 / one + (d + 3 * e) / k := by
  have ho := one_pos
  have hk' : (0 : ℝ) < k := by exact_mod_cast hk
  have hD : 0 < one * k := Nat.mul_pos (by decide) hk
  obtain ⟨h1, h2⟩ := natDiv_close (y * g) (one * k) hD
  push_cast at h1 h2
  have hy0 : 0 ≤ (y : ℝ) / one := by positivity
  have e1 : |(y : ℝ) / one * (g / one) - z * n| ≤ d + 3 * e := by
    have : (y : ℝ) / one * (g / one) - z * n = ((y : ℝ) / one) * (g / one - n) + (y / one - z) * n := by ring
    rw [this]
    refine (abs_add_le _ _).trans ?_
    rw [abs_mul, abs_mul, abs_of_nonneg hy0]
    have a1 : (y : ℝ) / one * |(g : ℝ) / one - n| ≤ 3 * e := mul_le_mul hy hg (abs_nonneg _) (by norm_num)
    have a2 : |(y : ℝ) / one - z| * |n| ≤ d * 1 := mul_le_mul hz hn (abs_nonneg _) ((abs_nonneg _).trans hz)
    linarith
  have e2 : ((y : ℝ) * g / (one * k)) / one = ((y : ℝ) / one * (g / one)) / k := by field_simp
  have e3 : |((y * g / (one * k) : ℕ) : ℝ) / one - ((y : ℝ) / one * (g / one)) / k| ≤ 1 / one := by
    rw [← e2, ← sub_div, abs_div, abs_of_pos ho]
    gcongr
    rw [abs_le]; constructor <;> linarith
  have e4 : |((y : ℝ) / one * (g / one)) / k - z * n / k| ≤ (d + 3 * e) / k := by
    rw [← sub_div, abs_div, abs_of_pos hk']
    gcongr
  calc _ ≤ |((y * g / (one * k) : ℕ) : ℝ) / one - ((y : ℝ) / one * (g / one)) / k| +
        |((y : ℝ) / one * (g / one)) / k - z * n / k| := abs_sub_le _ _ _
    _ ≤ _ := add_le_add e3 e4

theorem nestReal_mem {z : ℝ} (h0 : 0 ≤ z) (h3 : z ≤ 3) (t : ℕ) : ∀ m, 2 ≤ m → 0 ≤ nestReal z t m ∧ nestReal z t m ≤ 1 := by
  induction t with
  | zero => intro m _; simp [nestReal]
  | succ t ih =>
    intro m hm
    obtain ⟨a, b⟩ := ih (m + 1) (by omega)
    have hk : (12 : ℝ) ≤ (((2 * m - 1) * (2 * m) : ℕ) : ℝ) := by
      exact_mod_cast (Nat.mul_le_mul (by omega : 3 ≤ 2 * m - 1) (by omega : 4 ≤ 2 * m))
    have hk0 : (0 : ℝ) < (((2 * m - 1) * (2 * m) : ℕ) : ℝ) := by linarith
    have h1 : 0 ≤ z * nestReal z t (m + 1) / (((2 * m - 1) * (2 * m) : ℕ) : ℝ) := by positivity
    have h2 : z * nestReal z t (m + 1) / (((2 * m - 1) * (2 * m) : ℕ) : ℝ) ≤ 1 := by
      rw [div_le_one hk0]
      have : z * nestReal z t (m + 1) ≤ 3 * 1 := mul_le_mul h3 b a (by norm_num)
      linarith
    unfold nestReal
    constructor <;> linarith

/-- Past the first factor the nesting stays within twice the error of its operand. -/
theorem cosNest_close {y : ℕ} {z d : ℝ} (h0 : 0 ≤ z) (h3 : z ≤ 3) (hz : |(y : ℝ) / one - z| ≤ d) (hy : (y : ℝ) / one ≤ 3)
    (t : ℕ) : ∀ m, 2 ≤ m → |(cosNest y t m : ℝ) / one - nestReal z t m| ≤ 2 * (1 / one + d) := by
  have ho := one_pos
  have hd : 0 ≤ d := (abs_nonneg _).trans hz
  have ho' : (0 : ℝ) < 1 / one := by positivity
  induction t with
  | zero => intro m _; simp [cosNest, nestReal, div_self ho.ne']; positivity
  | succ t ih =>
    intro m hm
    have hk : 12 ≤ (2 * m - 1) * (2 * m) := Nat.mul_le_mul (by omega : 3 ≤ 2 * m - 1) (by omega : 4 ≤ 2 * m)
    have hkr : (12 : ℝ) ≤ (((2 * m - 1) * (2 * m) : ℕ) : ℝ) := by exact_mod_cast hk
    obtain ⟨a, b⟩ := nestReal_mem h0 h3 t (m + 1) (by omega)
    have hs := nest_step (k := (2 * m - 1) * (2 * m)) (by omega) hz hy (by rw [abs_of_nonneg a]; exact b)
      (ih (m + 1) (by omega))
    have hle : y * cosNest y t (m + 1) / (one * ((2 * m - 1) * (2 * m))) ≤ one := by
      have h1 : y ≤ 3 * one := by rw [div_le_iff₀ ho] at hy; exact_mod_cast hy
      apply Nat.div_le_of_le_mul
      calc y * cosNest y t (m + 1) ≤ 3 * one * one := Nat.mul_le_mul h1 (cosNest_le _ _ _)
        _ ≤ 12 * one * one := Nat.mul_le_mul_right _ (Nat.mul_le_mul_right _ (by decide))
        _ ≤ one * ((2 * m - 1) * (2 * m)) * one := by
            rw [Nat.mul_comm one]; exact Nat.mul_le_mul_right _ (Nat.mul_le_mul_right _ hk)
    rw [cosNest, nestReal, Nat.cast_sub hle, sub_div, div_self ho.ne', sub_sub_sub_cancel_left, abs_sub_comm]
    refine hs.trans ?_
    have : (d + 3 * (2 * (1 / one + d))) / (((2 * m - 1) * (2 * m) : ℕ) : ℝ) ≤ (d + 3 * (2 * (1 / one + d))) / 12 := by
      gcongr
    linarith

/-- The fixed-point cosine polynomial at `y`, near `x²` for an angle in the first quarter turn. -/
theorem cosNest_one_close {y : ℕ} {x d : ℝ} (h0 : 0 ≤ x) (h : x ≤ Real.pi / 2) (hz : |(y : ℝ) / one - x ^ 2| ≤ d)
    (hd : d ≤ 0.1) : |(cosNest y 16 1 : ℝ) / one - Real.cos x| ≤ 4 * (1 / one + d) + 1e-12 := by
  have ho := one_pos
  have hpi := Real.pi_lt_d2
  have hx : x ≤ 1.6 := by linarith
  have hz0 : 0 ≤ x ^ 2 := sq_nonneg x
  have hz3 : x ^ 2 ≤ 2.6 := by nlinarith
  have hy : (y : ℝ) / one ≤ 3 := by linarith [(abs_le.1 hz).2]
  have hd0 : 0 ≤ d := (abs_nonneg _).trans hz
  have hcos : 0 ≤ Real.cos x := Real.cos_nonneg_of_neg_pi_div_two_le_of_le (by linarith [Real.pi_pos]) h
  obtain ⟨a, b⟩ := nestReal_mem hz0 (by linarith) 15 2 le_rfl
  have hs := nest_step (k := 2) (by decide) hz hy (by rw [abs_of_nonneg a]; exact b)
    (cosNest_close hz0 (by linarith) hz hy 15 2 le_rfl)
  have hn := nestReal_close h0 hx
  have hN : nestReal (x ^ 2) 16 1 = 1 - x ^ 2 * nestReal (x ^ 2) 15 2 / 2 := by
    rw [nestReal]; norm_num
  have hC : cosNest y 16 1 = one - y * cosNest y 15 2 / (one * 2) := rfl
  have hfin : |1 - ((y * cosNest y 15 2 / (one * 2) : ℕ) : ℝ) / one - Real.cos x| ≤ 4 * (1 / one + d) + 1e-12 := by
    have e : 1 - ((y * cosNest y 15 2 / (one * 2) : ℕ) : ℝ) / one - Real.cos x =
        -(((y * cosNest y 15 2 / (one * 2) : ℕ) : ℝ) / one - x ^ 2 * nestReal (x ^ 2) 15 2 / (2 : ℕ)) +
          (nestReal (x ^ 2) 16 1 - Real.cos x) := by rw [hN]; push_cast; ring
    rw [e]
    refine (abs_add_le _ _).trans ?_
    rw [abs_neg]
    have : 1 / (one : ℝ) + (d + 3 * (2 * (1 / one + d))) / (2 : ℕ) ≤ 4 * (1 / one + d) := by push_cast; linarith
    linarith
  rw [hC]
  rcases Nat.le_total (y * cosNest y 15 2 / (one * 2)) one with hle | hle
  · rw [Nat.cast_sub hle, sub_div, div_self ho.ne']; exact hfin
  · rw [Nat.sub_eq_zero_of_le hle]
    have h1 : (1 : ℝ) ≤ ((y * cosNest y 15 2 / (one * 2) : ℕ) : ℝ) / one := by
      rw [le_div_iff₀ ho, one_mul]; exact_mod_cast hle
    have h2 := (abs_le.1 hfin).1
    rw [Nat.cast_zero, zero_div, zero_sub, abs_neg, abs_of_nonneg hcos]
    linarith

theorem piFix_close : |(piFix : ℝ) / one - Real.pi| ≤ 1e-19 := by
  have h1 := Real.pi_gt_d20
  have h2 := Real.pi_lt_d20
  rw [abs_le]
  have : (piFix : ℝ) / one = 248902613312231085230521944622 / 2 ^ 96 := by norm_num [piFix, one, fracBits]
  rw [this]
  constructor
  · norm_num at h1 h2 ⊢; linarith
  · norm_num at h1 h2 ⊢; linarith

/-- The fixed-point cosine of an angle below a quarter turn. -/
theorem cosAcute_close {num den : ℕ} (h : 4 * num < den) :
    |(cosAcute num den : ℝ) / one - Real.cos (2 * Real.pi * num / den)| ≤ 1e-11 := by
  have ho := one_pos
  have ho' : 1 / (one : ℝ) ≤ 1e-20 := by norm_num [one, fracBits]
  have hden : (0 : ℝ) < den := by exact_mod_cast (by omega : 0 < den)
  have hpi := Real.pi_lt_d2
  have hpi0 := Real.pi_pos
  have hr0 : 0 ≤ (num : ℝ) / den := by positivity
  have hr : (num : ℝ) / den ≤ 1 / 4 := by
    rw [div_le_iff₀ hden]; have : (4 * num : ℝ) < den := by exact_mod_cast h
    linarith
  set θ := 2 * Real.pi * num / den with hθ
  have hθ' : θ = 2 * Real.pi * (num / den) := by rw [hθ]; ring
  have hθ0 : 0 ≤ θ := by rw [hθ']; positivity
  have hθ2 : θ ≤ Real.pi / 2 := by rw [hθ']; nlinarith
  obtain ⟨x1, x2⟩ := natDiv_close (2 * piFix * num) den (by omega)
  push_cast at x1 x2
  set x := 2 * piFix * num / den with hxdef
  obtain ⟨y1, y2⟩ := natDiv_close (x * x) one (by decide)
  push_cast at y1 y2
  have hxθ : |(x : ℝ) / one - θ| ≤ 1e-18 := by
    have e : (2 * (piFix : ℝ) * num / den) / one - θ = 2 * (num / den) * (piFix / one - Real.pi) := by
      rw [hθ']; field_simp
    have e2 : |(2 * (piFix : ℝ) * num / den) / one - θ| ≤ 1e-19 := by
      rw [e, abs_mul, abs_of_nonneg (by positivity)]
      have := piFix_close
      nlinarith [abs_nonneg ((piFix : ℝ) / one - Real.pi)]
    have e3 : |(x : ℝ) / one - (2 * (piFix : ℝ) * num / den) / one| ≤ 1 / one := by
      rw [← sub_div, abs_div, abs_of_pos ho]
      gcongr
      rw [abs_le]; constructor <;> linarith
    calc _ ≤ _ := abs_sub_le _ ((2 * (piFix : ℝ) * num / den) / one) _
      _ ≤ 1e-20 + 1e-19 := add_le_add (e3.trans ho') e2
      _ ≤ 1e-18 := by norm_num
  have hx0 : 0 ≤ (x : ℝ) / one := by positivity
  have hx2 : (x : ℝ) / one ≤ 1.6 := by linarith [(abs_le.1 hxθ).2]
  have hy : |((x * x / one : ℕ) : ℝ) / one - θ ^ 2| ≤ 1e-16 := by
    have e1 : |((x * x / one : ℕ) : ℝ) / one - (x * x / one : ℝ) / one| ≤ 1 / one := by
      rw [← sub_div, abs_div, abs_of_pos ho]
      gcongr
      rw [abs_le]; constructor <;> linarith
    have e2 : |(x * x / one : ℝ) / one - θ ^ 2| ≤ 1e-18 * 4 := by
      have : (x * x / one : ℝ) / one - θ ^ 2 = (x / one - θ) * (x / one + θ) := by field_simp; ring
      rw [this, abs_mul]
      refine mul_le_mul hxθ ?_ (abs_nonneg _) (by norm_num)
      rw [abs_of_nonneg (by positivity)]; linarith
    calc _ ≤ _ := abs_sub_le _ ((x * x / one : ℝ) / one) _
      _ ≤ 1e-20 + 1e-18 * 4 := add_le_add (e1.trans ho') e2
      _ ≤ 1e-16 := by norm_num
  have := cosNest_one_close hθ0 hθ2 hy (by norm_num)
  unfold cosAcute
  simp only
  refine this.trans ?_
  norm_num at ho' ⊢
  linarith

/-- The fixed-point cosine of `2π · i / den` for an index of the window, `i ≤ den`. -/
theorem cosTurn_close {i den : ℕ} (hd : 0 < den) (hi : i ≤ den) :
    |(if (cosTurn i den).1 then -((cosTurn i den).2 : ℝ) else ((cosTurn i den).2 : ℝ)) / one -
      Real.cos (2 * Real.pi * i / den)| ≤ 1e-11 := by
  have hden : (0 : ℝ) < den := by exact_mod_cast hd
  set t := min (i % den) (den - i % den) with ht
  have hu : i % den < den := Nat.mod_lt _ hd
  have htd : 2 * t ≤ den := by omega
  have hcos : Real.cos (2 * Real.pi * i / den) = Real.cos (2 * Real.pi * t / den) := by
    have h1 : Real.cos (2 * Real.pi * i / den) = Real.cos (2 * Real.pi * (i % den : ℕ) / den) := by
      rcases hi.lt_or_eq with h | h
      · rw [Nat.mod_eq_of_lt h]
      · subst h
        rw [Nat.mod_self, mul_div_assoc, div_self hden.ne']; simp
    rw [h1]
    rcases Nat.le_total (i % den) (den - i % den) with h | h
    · rw [ht, min_eq_left h]
    · rw [ht, min_eq_right h, Nat.cast_sub hu.le]
      rw [show 2 * Real.pi * ((den : ℝ) - (i % den : ℕ)) / den = 2 * Real.pi - 2 * Real.pi * (i % den : ℕ) / den by
        field_simp, Real.cos_two_pi_sub]
  rw [hcos]
  have hC : cosTurn i den = if 4 * t < den then (false, cosAcute t den) else if 4 * t = den then (false, 0)
      else (true, cosAcute (den - 2 * t) (2 * den)) := rfl
  rw [hC]
  rcases Nat.lt_trichotomy (4 * t) den with h | h | h
  · rw [if_pos h]
    simp only [Bool.false_eq_true, if_false]
    exact cosAcute_close h
  · rw [if_neg (show ¬ 4 * t < den by omega), if_pos h]
    have e : 2 * Real.pi * (t : ℝ) / den = Real.pi / 2 := by
      have : (den : ℝ) = 4 * t := by rw [← h]; push_cast; ring
      rw [this] at hden ⊢
      have : (t : ℝ) ≠ 0 := by intro h0; rw [h0] at hden; norm_num at hden
      field_simp; ring
    rw [e, Real.cos_pi_div_two]
    norm_num
  · rw [if_neg (show ¬ 4 * t < den by omega), if_neg (show ¬ 4 * t = den by omega)]
    simp only [if_true]
    have hc := cosAcute_close (num := den - 2 * t) (den := 2 * den) (by omega)
    have e : 2 * Real.pi * ((den - 2 * t : ℕ) : ℝ) / ((2 * den : ℕ) : ℝ) = Real.pi - 2 * Real.pi * t / den := by
      rw [Nat.cast_sub htd]; push_cast; field_simp
    rw [e, Real.cos_pi_sub] at hc
    rw [neg_div, ← abs_neg]
    convert hc using 2; ring

/-! ## From fixed point to binary32 -/

/-- The one rounding of a fixed-point number up to 1. -/
theorem valueOf_ofFix {v : ℕ} (h : v ≤ one) : |(Reference.valueOf (ofFix false v) : ℝ) - (v : ℝ) / one| ≤ 2 ^ (-23 : ℤ) := by
  have hlog : (v * 2 ^ 149).log2 - (23 + 96) ≤ 126 := by
    have h1 : v * 2 ^ 149 < 2 ^ 246 := by
      calc v * 2 ^ 149 ≤ 2 ^ 96 * 2 ^ 149 := Nat.mul_le_mul_right _ h
        _ < 2 ^ 246 := by decide
    rcases Nat.eq_zero_or_pos (v * 2 ^ 149) with h0 | h0
    · rw [h0]; simp
    · have := (Nat.log2_lt h0.ne').mpr h1; omega
  obtain ⟨h1, h2⟩ := units_roundPat_close hlog (by decide)
  have hv : Reference.valueOf (ofFix false v) = (units (roundPat (v * 2 ^ 149) 96) : ℚ) / 2 ^ 149 := by
    simp only [Reference.valueOf, ofFix, value, msb_pack false (roundPat_lt _ _), magPat_pack false (roundPat_lt _ _)]
    simp [fracBits]
  rw [hv]
  generalize units (roundPat (v * 2 ^ 149) 96) = u at *
  have h1' : 2 * ((u : ℝ) * 2 ^ 96) ≤ 2 * ((v : ℝ) * 2 ^ 149) + 2 ^ 222 := by exact_mod_cast h1
  have h2' : 2 * ((v : ℝ) * 2 ^ 149) ≤ 2 * ((u : ℝ) * 2 ^ 96) + 2 ^ 222 := by exact_mod_cast h2
  have ho : (one : ℝ) = 2 ^ 96 := by norm_num [one, fracBits]
  rw [ho]
  push_cast
  have e : (u : ℝ) / 2 ^ 149 - v / 2 ^ 96 = (u * 2 ^ 96 - v * 2 ^ 149) / 2 ^ 245 := by
    field_simp
  rw [e, abs_div, abs_of_pos (by positivity : (0 : ℝ) < 2 ^ 245), div_le_iff₀ (by positivity)]
  have : (2 : ℝ) ^ (-23 : ℤ) * 2 ^ 245 = 2 ^ 222 := by norm_num
  rw [this, abs_le]
  constructor <;> linarith

end Sys2Proof.Machine.Binary32
end

