-- ==== Sys2Proof/Laws/Decode.lean ====
section
/-! SUPPORT. The decoder and the encoder, said once for the proofs that use them. -/

namespace Sys2Proof

@[simp] theorem decode_encode (i : Instr) : decode (encode i) = .ok i := by
  cases i <;> rfl

theorem encode_injective {i j : Instr} (h : encode i = encode j) : i = j := by
  have h' := congrArg decode h
  rw [decode_encode, decode_encode] at h'
  exact Except.ok.inj h'

@[simp] theorem encode_inj {i j : Instr} : encode i = encode j ↔ i = j :=
  ⟨encode_injective, congrArg encode⟩

/-- A well-formed phase code is the code of an operation. -/
theorem exists_encode_of_wf : ∀ c : PhaseCode, phaseCodeWf c = true → ∃ i, c = encode i := by
  have h : ∀ c : PhaseCode, phaseCodeWf c = true → (Instr.all.any fun i => c == encode i) = true := by decide
  intro c hc
  obtain ⟨i, -, hi⟩ := List.any_eq_true.mp (h c hc)
  exact ⟨i, by simpa using hi⟩

@[simp] theorem phaseCodeWf_encode (i : Instr) : phaseCodeWf (encode i) = true := by
  cases i <;> rfl

end Sys2Proof
end

