-- ==== Sys2Proof/Laws/Operands.lean ====
section
/-! SUPPORT. The elements of a buffer, the addressing mode and the sample table. -/

namespace Sys2Proof.Machine

variable {V : Type}

/-! ## Elements of a buffer -/

section Elements

variable [Inhabited V]

@[simp] theorem elemsFrom_length (c i : Nat) (buf : List V) : (elemsFrom c i buf).length = c := by
  induction c generalizing i buf with
  | zero => rfl
  | succ c ih => cases buf <;> simp [elemsFrom, ih]

@[simp] theorem elems_length (n : Nat) (buf : List V) : (elems n buf).length = n :=
  elemsFrom_length n 0 buf

theorem elemsFrom_eq_map (c i : Nat) (buf : List V) :
    elemsFrom c i buf = (List.range c).map fun j => buf.getD j (Config.beyondBuffer (i + j)) := by
  induction c generalizing i buf with
  | zero => rfl
  | succ c ih =>
    cases buf with
    | nil => simp [elemsFrom, ih, List.range_succ_eq_map, Function.comp_def, Nat.add_assoc, Nat.add_comm 1]
    | cons x xs =>
      simp [elemsFrom, ih, List.range_succ_eq_map, Function.comp_def, Nat.add_assoc, Nat.add_comm 1]

/-- The list of the first `n` elements, in terms of the element read. -/
theorem elems_eq_map (n : Nat) (buf : List V) : elems n buf = (List.range n).map (elem buf) := by
  simp [elems, elemsFrom_eq_map, elem]

theorem elem_of_lt {buf : List V} {i : Nat} (h : i < buf.length) : elem buf i = buf[i] := by
  simp [elem, List.getD, List.getElem?_eq_getElem h]

/-- On a buffer with enough elements nothing is read beyond its end. -/
theorem elems_eq_take {n : Nat} {buf : List V} (h : n ≤ buf.length) : elems n buf = buf.take n := by
  rw [elems_eq_map]
  refine List.ext_getElem (by simp [h]) fun i h1 h2 => ?_
  simp only [List.length_map, List.length_range] at h1
  simp [elem_of_lt (Nat.lt_of_lt_of_le h1 h)]

theorem elems_self {n : Nat} {buf : List V} (h : buf.length = n) : elems n buf = buf := by
  rw [elems_eq_take h.ge, List.take_of_length_le h.le]

end Elements

/-! ## The addressing mode -/

theorem modL_of_pos {l : Nat} (h : 0 < l) (x : Nat) : modL l x = x % l := by
  simp [modL, Nat.ne_of_gt h]

/-- Every address formed is an element of a source that has one (R40). -/
theorem modL_lt {l : Nat} (h : 0 < l) (x : Nat) : modL l x < l := by
  rw [modL_of_pos h]; exact Nat.mod_lt x h

theorem ea_of_pos {l : Nat} (h : 0 < l) (c i : Nat) : ea l c i = (c + i) % l := modL_of_pos h _

@[simp] theorem frameAddrs_length (p : Platform V) (c : Nat) : (frameAddrs p c).length = p.n := by
  simp [frameAddrs]

theorem frameAddrs_getElem (p : Platform V) (c : Nat) {i : Nat} (h : i < (frameAddrs p c).length) :
    (frameAddrs p c)[i] = ea p.l c i := by
  simp [frameAddrs]

theorem frameMissing_eq_false {p : Platform V} (h : 0 < p.l) : frameMissing p = false := by
  simp [frameMissing, Nat.ne_of_gt h]

/-! ## The sample table -/

namespace Memory

variable [Inhabited V] [DecidableEq V]

theorem wfFrom_mono {m : Memory V} {a b : Nat} (hab : a ≤ b) (h : wfFrom b m = true) : wfFrom a m = true := by
  cases m with
  | nil => rfl
  | cons e m =>
    obtain ⟨c, v⟩ := e
    simp only [wfFrom, Bool.and_eq_true, decide_eq_true_eq] at h ⊢
    exact ⟨⟨hab.trans h.1.1, h.1.2⟩, h.2⟩

theorem ofSamples_wfFrom (a : Nat) (xs : List V) : wfFrom a (ofSamples a xs) = true := by
  induction xs generalizing a with
  | nil => rfl
  | cons v xs ih =>
    unfold ofSamples
    split
    · exact wfFrom_mono (Nat.le_succ a) (ih (a + 1))
    · next h => simp [wfFrom, h, ih (a + 1)]

/-- A table put in place from its samples is in canonical form. -/
theorem ofSamples_wf (a : Nat) (xs : List V) : (ofSamples a xs).wf = true :=
  wfFrom_mono (Nat.zero_le a) (ofSamples_wfFrom a xs)

/-- Below the least listed address nothing is listed. -/
theorem read_below {m : Memory V} {lo a : Nat} (h : wfFrom lo m = true) (ha : a < lo) : read m a = unlisted := by
  induction m generalizing lo with
  | nil => rfl
  | cons e m ih =>
    obtain ⟨c, v⟩ := e
    simp only [wfFrom, Bool.and_eq_true, decide_eq_true_eq] at h
    have hac : a < c := ha.trans_le h.1.1
    rw [read, if_neg hac.ne]
    exact ih h.2 (hac.trans (Nat.lt_succ_self c))

/-- No entry of a table in canonical form is what an unlisted address reads as. -/
theorem value_ne_unlisted {m : Memory V} {lo a : Nat} {v : V} (h : wfFrom lo m = true) (hm : (a, v) ∈ m) : v ≠ unlisted := by
  induction m generalizing lo with
  | nil => simp at hm
  | cons e m ih =>
    obtain ⟨c, w⟩ := e
    simp only [wfFrom, Bool.and_eq_true, decide_eq_true_eq, Bool.not_eq_true', decide_eq_false_iff_not] at h
    rcases List.mem_cons.mp hm with he | he
    · cases he; exact h.1.2
    · exact ih h.2 he

omit [DecidableEq V] in
/-- An address that no entry lists reads as `unlisted`. -/
theorem read_of_not_mem {m : Memory V} {a : Nat} (h : ∀ v, (a, v) ∉ m) : read m a = unlisted := by
  induction m with
  | nil => rfl
  | cons e m ih =>
    obtain ⟨c, w⟩ := e
    rw [read, if_neg fun hac => h w (by simp [hac])]
    exact ih fun v hv => h v (by simp [hv])

/-- A table in canonical form reads, at a listed address, as the value listed there. -/
theorem read_of_mem {m : Memory V} {lo a : Nat} {v : V} (h : wfFrom lo m = true) (hm : (a, v) ∈ m) : read m a = v := by
  induction m generalizing lo with
  | nil => simp at hm
  | cons e m ih =>
    obtain ⟨c, w⟩ := e
    simp only [wfFrom, Bool.and_eq_true, decide_eq_true_eq] at h
    rcases List.mem_cons.mp hm with he | he
    · cases he; simp [read]
    · have hca : c < a := by
        by_contra hc
        have hu := read_below h.2 (by omega : a < c + 1)
        rw [ih h.2 he] at hu
        exact absurd hu (value_ne_unlisted h.2 he)
      rw [read, if_neg hca.ne']
      exact ih h.2 he

/-- A table put in place from its samples reads as them. -/
theorem read_ofSamples (a : Nat) (xs : List V) {i : Nat} (h : i < xs.length) :
    read (ofSamples a xs) (a + i) = xs[i] := by
  induction xs generalizing a i with
  | nil => simp at h
  | cons v xs ih =>
    unfold ofSamples
    cases i with
    | zero =>
      split
      · next hv => simpa [hv] using read_below (ofSamples_wfFrom (a + 1) xs) (Nat.lt_succ_self a)
      · simp [read]
    | succ i =>
      have hi : i < xs.length := by simpa using h
      have := ih (a + 1) hi
      split
      · simpa [Nat.add_assoc, Nat.add_comm 1] using this
      · simpa [read, Nat.add_assoc, Nat.add_comm 1] using this

/-- The canonical form is canonical: two tables in it that read alike are equal. -/
theorem ext_of_wfFrom {m k : Memory V} {lo : Nat} (hm : wfFrom lo m = true) (hk : wfFrom lo k = true)
    (h : ∀ a, read m a = read k a) : m = k := by
  induction m generalizing k lo with
  | nil =>
    cases k with
    | nil => rfl
    | cons f k =>
      obtain ⟨d, w⟩ := f
      simp only [wfFrom, Bool.and_eq_true, decide_eq_true_eq, Bool.not_eq_true', decide_eq_false_iff_not] at hk
      have := h d
      simp only [read, if_true] at this
      exact absurd this.symm hk.1.2
  | cons e m ih =>
    obtain ⟨c, v⟩ := e
    simp only [wfFrom, Bool.and_eq_true, decide_eq_true_eq, Bool.not_eq_true', decide_eq_false_iff_not] at hm
    cases k with
    | nil =>
      have := h c
      simp only [read, if_true] at this
      exact absurd this hm.1.2
    | cons f k =>
      obtain ⟨d, w⟩ := f
      simp only [wfFrom, Bool.and_eq_true, decide_eq_true_eq, Bool.not_eq_true', decide_eq_false_iff_not] at hk
      have hcd : c = d := by
        rcases Nat.lt_trichotomy c d with hlt | heq | hgt
        · have := h c
          rw [read, if_pos rfl, read, if_neg hlt.ne, read_below hk.2 (hlt.trans (Nat.lt_succ_self d))] at this
          exact absurd this hm.1.2
        · exact heq
        · have := h d
          rw [read, if_neg hgt.ne, read_below hm.2 (hgt.trans (Nat.lt_succ_self c)), read, if_pos rfl] at this
          exact absurd this.symm hk.1.2
      subst hcd
      have hvw : v = w := by simpa [read] using h c
      subst hvw
      congr 1
      refine ih hm.2 hk.2 fun a => ?_
      by_cases hac : a = c
      · rw [hac, read_below hm.2 (Nat.lt_succ_self c), read_below hk.2 (Nat.lt_succ_self c)]
      · simpa [read, hac] using h a

end Memory

/-- The reset state's sample table is in canonical form. No operation writes the table (R39). -/
theorem reset_src_wf : State.reset.platform.src.wf = true := rfl

end Sys2Proof.Machine
end

