-- ==== Sys2Proof/Laws/Numeric.lean ====
section
/-! SUPPORT. The numeric stages: shapes, elements, and what the ascending scan answers (R78, R81). -/

namespace Sys2Proof.Machine

section Shapes

variable {V : Type}

@[simp] theorem windowTable_length (A : Arith V) (n : Nat) : (windowTable A n).length = n := by
  simp [windowTable]

theorem windowTable_getElem (A : Arith V) (n : Nat) {i : Nat} (h : i < (windowTable A n).length) :
    (windowTable A n)[i] = A.wcoef n i := by
  simp [windowTable]

@[simp] theorem windowed_length (A : Arith V) (x w : List V) :
    (windowed A x w).length = min x.length w.length := by
  simp [windowed]

theorem windowed_getElem (A : Arith V) (x w : List V) {i : Nat} (h : i < (windowed A x w).length)
    (hx : i < x.length) (hw : i < w.length) : (windowed A x w)[i] = A.mul x[i] w[i] := by
  simp [windowed]

@[simp] theorem spectrumOf_length (X : Transform V) (n : Nat) (tw x : List V) :
    (spectrumOf X n tw x).length = n := by
  simp [spectrumOf]

theorem spectrumOf_getElem (X : Transform V) (n : Nat) (tw x : List V) {k : Nat}
    (h : k < (spectrumOf X n tw x).length) : (spectrumOf X n tw x)[k] = X.run tw x k := by
  simp [spectrumOf]

theorem finiteSpectrum_iff (A : Arith V) (bins : List (V × V)) :
    finiteSpectrum A bins = true ↔
      ∀ b ∈ bins, A.finite b.1 = true ∧ A.finite b.2 = true ∧ A.finite (magnitude A b) = true := by
  simp [finiteSpectrum, and_assoc]

end Shapes

/-- Where the window formula has a value, `w` is the formula (R64). -/
theorem w_of_two_le {n : ℕ} (hn : 2 ≤ n) (i : ℕ) :
    Reference.w n i = 0.54 - 0.46 * Real.cos (2 * Real.pi * i / (n - 1)) := by
  rw [Reference.w, if_neg (by omega)]

/-! ## The ascending scan -/

section Scan

variable {V : Type} {A : Arith V}

/-- `b` is the least index at which nothing listed is strictly greater: every earlier element is strictly less. -/
def Best (gt : V → V → Bool) (l : List V) (b : Nat) : Prop :=
  ∃ h : b < l.length, (∀ y ∈ l, gt y l[b] = false) ∧ ∀ j (hj : j < b), gt l[b] (l[j]'(hj.trans h)) = true

theorem gt_of_gt_of_not_gt (hA : A.GtOrder) {x m p : V} (hx : A.finite x = true)
    (hm : A.finite m = true) (hp : A.finite p = true) (h1 : A.gt x m = true) (h2 : A.gt p m = false) :
    A.gt x p = true := by
  obtain ⟨-, htr, heq⟩ := hA
  by_contra h
  have hxp : A.gt x p = false := by simpa using h
  have hpx : A.gt p x = false := by
    by_contra h'
    exact absurd (htr p x m hp hx hm (by simpa using h') h1) (by simp [h2])
  have hmp : A.gt m p = false := by
    by_contra h'
    exact absurd (htr x m p hx hm hp h1 (by simpa using h')) (by simp [hxp])
  exact absurd (heq x p m hx hp hm hxp hpx h2 hmp).1 (by simp [h1])

/-- One bin more: the best of a list with one element appended. -/
theorem Best.snoc (hA : A.GtOrder) {l : List V} {b : Nat} {x : V} (hl : ∀ y ∈ l, A.finite y = true)
    (hx : A.finite x = true) (h : Best A.gt l b) (hb : b < l.length) :
    Best A.gt (l ++ [x]) (if A.gt x l[b] then l.length else b) := by
  obtain ⟨_, hmax, hlow⟩ := h
  have hbf := hl _ (List.getElem_mem hb)
  split
  · next hg =>
    refine ⟨by simp, ?_, ?_⟩
    · intro y hy
      rw [List.getElem_append_right le_rfl]
      simp only [Nat.sub_self, List.getElem_cons_zero]
      rcases List.mem_append.mp hy with hy | hy
      · by_contra h'
        exact absurd (hA.2.1 y x _ (hl y hy) hx hbf (by simpa using h') hg) (by simp [hmax y hy])
      · rw [List.mem_singleton.mp hy]; exact hA.1 x hx
    · intro j hj
      rw [List.getElem_append_right le_rfl, List.getElem_append_left hj]
      simp only [Nat.sub_self, List.getElem_cons_zero]
      exact gt_of_gt_of_not_gt hA hx hbf (hl _ (List.getElem_mem hj)) hg (hmax _ (List.getElem_mem hj))
  · next hg =>
    refine ⟨by simp; omega, ?_, ?_⟩
    · intro y hy
      rw [List.getElem_append_left hb]
      rcases List.mem_append.mp hy with hy | hy
      · exact hmax y hy
      · rw [List.mem_singleton.mp hy]; simpa using hg
    · intro j hj
      rw [List.getElem_append_left hb, List.getElem_append_left (hj.trans hb)]
      exact hlow j hj

theorem scanPeak_best (hA : A.GtOrder) (xs : List V) (l : List V) (b : Nat) (hb : b < l.length)
    (hfin : ∀ y ∈ l ++ xs, A.finite y = true) (h : Best A.gt l b) :
    Best A.gt (l ++ xs) (scanPeak A.gt xs l.length (b, l[b])) := by
  induction xs generalizing l b with
  | nil => simpa [scanPeak] using h
  | cons x xs ih =>
    have hl : ∀ y ∈ l, A.finite y = true := fun y hy => hfin y (by simp [hy])
    have hs := Best.snoc hA hl (hfin x (by simp)) h hb
    have key : ∀ c (hc : c < (l ++ [x]).length), Best A.gt (l ++ [x]) c →
        Best A.gt (l ++ x :: xs) (scanPeak A.gt xs (l.length + 1) (c, (l ++ [x])[c])) := by
      intro c hc hbest
      have := ih (l ++ [x]) c hc (by simpa using hfin) hbest
      simpa using this
    unfold scanPeak
    split at hs
    · next hg =>
      rw [if_pos hg]
      simpa using key l.length (by simp) hs
    · next hg =>
      rw [if_neg hg]
      have := key b (by simp; omega) hs
      rwa [List.getElem_append_left hb] at this

/-- The peak bin is the least one whose magnitude nothing exceeds: every lower bin's magnitude is strictly less (R78,
R81). -/
theorem peakBin_best (hA : A.GtOrder) {bins : List (V × V)} (hne : bins ≠ [])
    (hfin : ∀ b ∈ bins, A.finite (magnitude A b) = true) :
    Best A.gt (bins.map (magnitude A)) (peakBin A bins) := by
  cases bins with
  | nil => exact absurd rfl hne
  | cons b bs =>
    have h0 : Best A.gt [magnitude A b] 0 :=
      ⟨by simp, by simpa using hA.1 _ (hfin b (by simp)), by simp⟩
    have := scanPeak_best hA (bs.map (magnitude A)) [magnitude A b] 0 (by simp)
      (fun y hy => by
        obtain ⟨c, hc, rfl⟩ := List.mem_map.mp (by simpa using hy : y ∈ (b :: bs).map (magnitude A))
        exact hfin c hc) h0
    simpa [peakBin] using this

/-- The scan stays among the bins scanned. -/
theorem scanPeak_le (gt : V → V → Bool) (xs : List V) (k : Nat) (best : Nat × V) (h : best.1 < k) :
    scanPeak gt xs k best < k + xs.length := by
  induction xs generalizing k best with
  | nil => simpa [scanPeak] using h
  | cons x xs ih =>
    obtain ⟨bk, bm⟩ := best
    have := ih (k + 1) (if gt x bm then (k, x) else (bk, bm)) (by split <;> simp_all; omega)
    simp only [scanPeak, List.length_cons]
    omega

/-- `0 ≤ KSTAR ≤ N/2 - 1` (R78). -/
theorem peakBin_lt (A : Arith V) {bins : List (V × V)} (h : bins ≠ []) : peakBin A bins < bins.length := by
  cases bins with
  | nil => exact absurd rfl h
  | cons b bs =>
    have := scanPeak_le A.gt (bs.map (magnitude A)) 1 (0, magnitude A b) (by simp)
    simpa [peakBin, Nat.add_comm] using this

end Scan

/-! ## The bins the classifier reads -/

end Sys2Proof.Machine

namespace Sys2Proof.Block

open Sys2Proof.Machine

@[simp] theorem State.bins_length {V : Type} [Inhabited V] (s : State V) : s.bins.length = s.platform.n / 2 := by
  simp [State.bins]

theorem State.bins_getElem {V : Type} [Inhabited V] (s : State V) {k : Nat} (h : k < s.bins.length) :
    s.bins[k] = (elem s.specRe k, elem s.specIm k) := by
  simp [State.bins, elems_eq_map]

end Sys2Proof.Block

namespace Sys2Proof.Machine

/-! ## The band mapper -/

theorem bandOf_eq_low_iff (fs n k : Nat) : bandOf fs n k = .low ↔ k * fs < 500 * n := by
  unfold bandOf Config.loHz Config.hiHz
  split_ifs <;> simp_all

theorem bandOf_eq_mid_iff (fs n k : Nat) : bandOf fs n k = .mid ↔ 500 * n ≤ k * fs ∧ k * fs < 2000 * n := by
  unfold bandOf Config.loHz Config.hiHz
  split_ifs <;> simp_all

theorem bandOf_eq_high_iff (fs n k : Nat) : bandOf fs n k = .high ↔ 2000 * n ≤ k * fs := by
  unfold bandOf Config.loHz Config.hiHz
  split_ifs <;> (simp_all; try omega)

/-- What R87 says of a threshold bin: it is the least bin at or above the threshold. -/
theorem thresholdBin_le_iff {fs : ℕ} (hf : 0 < fs) (t n k : ℕ) :
    Reference.thresholdBin t fs n ≤ k ↔ t * n ≤ k * fs := by
  rw [Reference.thresholdBin, if_neg hf.ne', Nat.ceil_le, div_le_iff₀ (by exact_mod_cast hf)]
  exact_mod_cast Iff.rfl

/-- Bin 0 is Low (R82, R84). -/
theorem bandOf_zero (fs : Nat) {n : Nat} (h : 0 < n) : bandOf fs n 0 = .low := by
  rw [bandOf_eq_low_iff]; omega

end Sys2Proof.Machine
end

