-- ==== Sys2Proof/Laws/State.lean ====
section
/-! SUPPORT. One lemma for each field under each write of State, so that no proof unfolds a record update. -/

namespace Sys2Proof.Block

open Sys2Proof.Machine

variable {V : Type}

@[simp] theorem State.setPhase_cursor (s : State V) (i : Instr) : (s.setPhase i).cursor = s.cursor := rfl
@[simp] theorem State.setPhase_phase (s : State V) (i : Instr) : (s.setPhase i).phase = encode i := rfl
@[simp] theorem State.setPhase_band (s : State V) (i : Instr) : (s.setPhase i).band = s.band := rfl
@[simp] theorem State.setPhase_kstar (s : State V) (i : Instr) : (s.setPhase i).kstar = s.kstar := rfl
@[simp] theorem State.setPhase_fault (s : State V) (i : Instr) : (s.setPhase i).fault = s.fault := rfl
@[simp] theorem State.setPhase_cause (s : State V) (i : Instr) : (s.setPhase i).cause = s.cause := rfl
@[simp] theorem State.setPhase_ind (s : State V) (i : Instr) : (s.setPhase i).ind = s.ind := rfl
@[simp] theorem State.setPhase_win (s : State V) (i : Instr) : (s.setPhase i).win = s.win := rfl
@[simp] theorem State.setPhase_frame (s : State V) (i : Instr) : (s.setPhase i).frame = s.frame := rfl
@[simp] theorem State.setPhase_specRe (s : State V) (i : Instr) : (s.setPhase i).specRe = s.specRe := rfl
@[simp] theorem State.setPhase_specIm (s : State V) (i : Instr) : (s.setPhase i).specIm = s.specIm := rfl
@[simp] theorem State.setPhase_tw (s : State V) (i : Instr) : (s.setPhase i).tw = s.tw := rfl
@[simp] theorem State.setPhase_written (s : State V) (i : Instr) : (s.setPhase i).written = s.written := rfl
@[simp] theorem State.setPhase_platform (s : State V) (i : Instr) : (s.setPhase i).platform = s.platform := rfl
@[simp] theorem State.setPhase_host (s : State V) (i : Instr) : (s.setPhase i).host = s.host := rfl

@[simp] theorem State.setCursor_cursor (s : State V) (c : Nat) : (s.setCursor c).cursor = c := rfl
@[simp] theorem State.setCursor_phase (s : State V) (c : Nat) : (s.setCursor c).phase = s.phase := rfl
@[simp] theorem State.setCursor_band (s : State V) (c : Nat) : (s.setCursor c).band = s.band := rfl
@[simp] theorem State.setCursor_kstar (s : State V) (c : Nat) : (s.setCursor c).kstar = s.kstar := rfl
@[simp] theorem State.setCursor_fault (s : State V) (c : Nat) : (s.setCursor c).fault = s.fault := rfl
@[simp] theorem State.setCursor_cause (s : State V) (c : Nat) : (s.setCursor c).cause = s.cause := rfl
@[simp] theorem State.setCursor_ind (s : State V) (c : Nat) : (s.setCursor c).ind = s.ind := rfl
@[simp] theorem State.setCursor_win (s : State V) (c : Nat) : (s.setCursor c).win = s.win := rfl
@[simp] theorem State.setCursor_frame (s : State V) (c : Nat) : (s.setCursor c).frame = s.frame := rfl
@[simp] theorem State.setCursor_specRe (s : State V) (c : Nat) : (s.setCursor c).specRe = s.specRe := rfl
@[simp] theorem State.setCursor_specIm (s : State V) (c : Nat) : (s.setCursor c).specIm = s.specIm := rfl
@[simp] theorem State.setCursor_tw (s : State V) (c : Nat) : (s.setCursor c).tw = s.tw := rfl
@[simp] theorem State.setCursor_written (s : State V) (c : Nat) : (s.setCursor c).written = s.written := rfl
@[simp] theorem State.setCursor_platform (s : State V) (c : Nat) : (s.setCursor c).platform = s.platform := rfl
@[simp] theorem State.setCursor_host (s : State V) (c : Nat) : (s.setCursor c).host = s.host := rfl

@[simp] theorem State.setBand_cursor (s : State V) (b : Band) : (s.setBand b).cursor = s.cursor := rfl
@[simp] theorem State.setBand_phase (s : State V) (b : Band) : (s.setBand b).phase = s.phase := rfl
@[simp] theorem State.setBand_band (s : State V) (b : Band) : (s.setBand b).band = b := rfl
@[simp] theorem State.setBand_kstar (s : State V) (b : Band) : (s.setBand b).kstar = s.kstar := rfl
@[simp] theorem State.setBand_fault (s : State V) (b : Band) : (s.setBand b).fault = s.fault := rfl
@[simp] theorem State.setBand_cause (s : State V) (b : Band) : (s.setBand b).cause = s.cause := rfl
@[simp] theorem State.setBand_ind (s : State V) (b : Band) : (s.setBand b).ind = s.ind := rfl
@[simp] theorem State.setBand_win (s : State V) (b : Band) : (s.setBand b).win = s.win := rfl
@[simp] theorem State.setBand_frame (s : State V) (b : Band) : (s.setBand b).frame = s.frame := rfl
@[simp] theorem State.setBand_specRe (s : State V) (b : Band) : (s.setBand b).specRe = s.specRe := rfl
@[simp] theorem State.setBand_specIm (s : State V) (b : Band) : (s.setBand b).specIm = s.specIm := rfl
@[simp] theorem State.setBand_tw (s : State V) (b : Band) : (s.setBand b).tw = s.tw := rfl
@[simp] theorem State.setBand_written (s : State V) (b : Band) : (s.setBand b).written = { s.written with band := true } := rfl
@[simp] theorem State.setBand_platform (s : State V) (b : Band) : (s.setBand b).platform = s.platform := rfl
@[simp] theorem State.setBand_host (s : State V) (b : Band) : (s.setBand b).host = s.host := rfl

@[simp] theorem State.setKstar_cursor (s : State V) (k : Nat) : (s.setKstar k).cursor = s.cursor := rfl
@[simp] theorem State.setKstar_phase (s : State V) (k : Nat) : (s.setKstar k).phase = s.phase := rfl
@[simp] theorem State.setKstar_band (s : State V) (k : Nat) : (s.setKstar k).band = s.band := rfl
@[simp] theorem State.setKstar_kstar (s : State V) (k : Nat) : (s.setKstar k).kstar = k := rfl
@[simp] theorem State.setKstar_fault (s : State V) (k : Nat) : (s.setKstar k).fault = s.fault := rfl
@[simp] theorem State.setKstar_cause (s : State V) (k : Nat) : (s.setKstar k).cause = s.cause := rfl
@[simp] theorem State.setKstar_ind (s : State V) (k : Nat) : (s.setKstar k).ind = s.ind := rfl
@[simp] theorem State.setKstar_win (s : State V) (k : Nat) : (s.setKstar k).win = s.win := rfl
@[simp] theorem State.setKstar_frame (s : State V) (k : Nat) : (s.setKstar k).frame = s.frame := rfl
@[simp] theorem State.setKstar_specRe (s : State V) (k : Nat) : (s.setKstar k).specRe = s.specRe := rfl
@[simp] theorem State.setKstar_specIm (s : State V) (k : Nat) : (s.setKstar k).specIm = s.specIm := rfl
@[simp] theorem State.setKstar_tw (s : State V) (k : Nat) : (s.setKstar k).tw = s.tw := rfl
@[simp] theorem State.setKstar_written (s : State V) (k : Nat) : (s.setKstar k).written = { s.written with kstar := true } := rfl
@[simp] theorem State.setKstar_platform (s : State V) (k : Nat) : (s.setKstar k).platform = s.platform := rfl
@[simp] theorem State.setKstar_host (s : State V) (k : Nat) : (s.setKstar k).host = s.host := rfl

@[simp] theorem State.setFault_cursor (s : State V) (c : BitVec 3) : (s.setFault c).cursor = s.cursor := rfl
@[simp] theorem State.setFault_phase (s : State V) (c : BitVec 3) : (s.setFault c).phase = s.phase := rfl
@[simp] theorem State.setFault_band (s : State V) (c : BitVec 3) : (s.setFault c).band = s.band := rfl
@[simp] theorem State.setFault_kstar (s : State V) (c : BitVec 3) : (s.setFault c).kstar = s.kstar := rfl
@[simp] theorem State.setFault_fault (s : State V) (c : BitVec 3) : (s.setFault c).fault = true := rfl
@[simp] theorem State.setFault_cause (s : State V) (c : BitVec 3) : (s.setFault c).cause = c := rfl
@[simp] theorem State.setFault_ind (s : State V) (c : BitVec 3) : (s.setFault c).ind = s.ind := rfl
@[simp] theorem State.setFault_win (s : State V) (c : BitVec 3) : (s.setFault c).win = s.win := rfl
@[simp] theorem State.setFault_frame (s : State V) (c : BitVec 3) : (s.setFault c).frame = s.frame := rfl
@[simp] theorem State.setFault_specRe (s : State V) (c : BitVec 3) : (s.setFault c).specRe = s.specRe := rfl
@[simp] theorem State.setFault_specIm (s : State V) (c : BitVec 3) : (s.setFault c).specIm = s.specIm := rfl
@[simp] theorem State.setFault_tw (s : State V) (c : BitVec 3) : (s.setFault c).tw = s.tw := rfl
@[simp] theorem State.setFault_written (s : State V) (c : BitVec 3) : (s.setFault c).written = s.written := rfl
@[simp] theorem State.setFault_platform (s : State V) (c : BitVec 3) : (s.setFault c).platform = s.platform := rfl
@[simp] theorem State.setFault_host (s : State V) (c : BitVec 3) : (s.setFault c).host = s.host := rfl

@[simp] theorem State.setInd_cursor (s : State V) (v : BitVec 3) : (s.setInd v).cursor = s.cursor := rfl
@[simp] theorem State.setInd_phase (s : State V) (v : BitVec 3) : (s.setInd v).phase = s.phase := rfl
@[simp] theorem State.setInd_band (s : State V) (v : BitVec 3) : (s.setInd v).band = s.band := rfl
@[simp] theorem State.setInd_kstar (s : State V) (v : BitVec 3) : (s.setInd v).kstar = s.kstar := rfl
@[simp] theorem State.setInd_fault (s : State V) (v : BitVec 3) : (s.setInd v).fault = s.fault := rfl
@[simp] theorem State.setInd_cause (s : State V) (v : BitVec 3) : (s.setInd v).cause = s.cause := rfl
@[simp] theorem State.setInd_ind (s : State V) (v : BitVec 3) : (s.setInd v).ind = v := rfl
@[simp] theorem State.setInd_win (s : State V) (v : BitVec 3) : (s.setInd v).win = s.win := rfl
@[simp] theorem State.setInd_frame (s : State V) (v : BitVec 3) : (s.setInd v).frame = s.frame := rfl
@[simp] theorem State.setInd_specRe (s : State V) (v : BitVec 3) : (s.setInd v).specRe = s.specRe := rfl
@[simp] theorem State.setInd_specIm (s : State V) (v : BitVec 3) : (s.setInd v).specIm = s.specIm := rfl
@[simp] theorem State.setInd_tw (s : State V) (v : BitVec 3) : (s.setInd v).tw = s.tw := rfl
@[simp] theorem State.setInd_written (s : State V) (v : BitVec 3) : (s.setInd v).written = s.written := rfl
@[simp] theorem State.setInd_platform (s : State V) (v : BitVec 3) : (s.setInd v).platform = s.platform := rfl
@[simp] theorem State.setInd_host (s : State V) (v : BitVec 3) : (s.setInd v).host = s.host := rfl

@[simp] theorem State.setWin_cursor (s : State V) (v : List V) : (s.setWin v).cursor = s.cursor := rfl
@[simp] theorem State.setWin_phase (s : State V) (v : List V) : (s.setWin v).phase = s.phase := rfl
@[simp] theorem State.setWin_band (s : State V) (v : List V) : (s.setWin v).band = s.band := rfl
@[simp] theorem State.setWin_kstar (s : State V) (v : List V) : (s.setWin v).kstar = s.kstar := rfl
@[simp] theorem State.setWin_fault (s : State V) (v : List V) : (s.setWin v).fault = s.fault := rfl
@[simp] theorem State.setWin_cause (s : State V) (v : List V) : (s.setWin v).cause = s.cause := rfl
@[simp] theorem State.setWin_ind (s : State V) (v : List V) : (s.setWin v).ind = s.ind := rfl
@[simp] theorem State.setWin_win (s : State V) (v : List V) : (s.setWin v).win = v := rfl
@[simp] theorem State.setWin_frame (s : State V) (v : List V) : (s.setWin v).frame = s.frame := rfl
@[simp] theorem State.setWin_specRe (s : State V) (v : List V) : (s.setWin v).specRe = s.specRe := rfl
@[simp] theorem State.setWin_specIm (s : State V) (v : List V) : (s.setWin v).specIm = s.specIm := rfl
@[simp] theorem State.setWin_tw (s : State V) (v : List V) : (s.setWin v).tw = s.tw := rfl
@[simp] theorem State.setWin_written (s : State V) (v : List V) : (s.setWin v).written = { s.written with win := true } := rfl
@[simp] theorem State.setWin_platform (s : State V) (v : List V) : (s.setWin v).platform = s.platform := rfl
@[simp] theorem State.setWin_host (s : State V) (v : List V) : (s.setWin v).host = s.host := rfl

@[simp] theorem State.setFrame_cursor (s : State V) (v : List V) : (s.setFrame v).cursor = s.cursor := rfl
@[simp] theorem State.setFrame_phase (s : State V) (v : List V) : (s.setFrame v).phase = s.phase := rfl
@[simp] theorem State.setFrame_band (s : State V) (v : List V) : (s.setFrame v).band = s.band := rfl
@[simp] theorem State.setFrame_kstar (s : State V) (v : List V) : (s.setFrame v).kstar = s.kstar := rfl
@[simp] theorem State.setFrame_fault (s : State V) (v : List V) : (s.setFrame v).fault = s.fault := rfl
@[simp] theorem State.setFrame_cause (s : State V) (v : List V) : (s.setFrame v).cause = s.cause := rfl
@[simp] theorem State.setFrame_ind (s : State V) (v : List V) : (s.setFrame v).ind = s.ind := rfl
@[simp] theorem State.setFrame_win (s : State V) (v : List V) : (s.setFrame v).win = s.win := rfl
@[simp] theorem State.setFrame_frame (s : State V) (v : List V) : (s.setFrame v).frame = v := rfl
@[simp] theorem State.setFrame_specRe (s : State V) (v : List V) : (s.setFrame v).specRe = s.specRe := rfl
@[simp] theorem State.setFrame_specIm (s : State V) (v : List V) : (s.setFrame v).specIm = s.specIm := rfl
@[simp] theorem State.setFrame_tw (s : State V) (v : List V) : (s.setFrame v).tw = s.tw := rfl
@[simp] theorem State.setFrame_written (s : State V) (v : List V) : (s.setFrame v).written = { s.written with frame := true } := rfl
@[simp] theorem State.setFrame_platform (s : State V) (v : List V) : (s.setFrame v).platform = s.platform := rfl
@[simp] theorem State.setFrame_host (s : State V) (v : List V) : (s.setFrame v).host = s.host := rfl

@[simp] theorem State.setSpec_cursor (s : State V) (re im : List V) : (s.setSpec re im).cursor = s.cursor := rfl
@[simp] theorem State.setSpec_phase (s : State V) (re im : List V) : (s.setSpec re im).phase = s.phase := rfl
@[simp] theorem State.setSpec_band (s : State V) (re im : List V) : (s.setSpec re im).band = s.band := rfl
@[simp] theorem State.setSpec_kstar (s : State V) (re im : List V) : (s.setSpec re im).kstar = s.kstar := rfl
@[simp] theorem State.setSpec_fault (s : State V) (re im : List V) : (s.setSpec re im).fault = s.fault := rfl
@[simp] theorem State.setSpec_cause (s : State V) (re im : List V) : (s.setSpec re im).cause = s.cause := rfl
@[simp] theorem State.setSpec_ind (s : State V) (re im : List V) : (s.setSpec re im).ind = s.ind := rfl
@[simp] theorem State.setSpec_win (s : State V) (re im : List V) : (s.setSpec re im).win = s.win := rfl
@[simp] theorem State.setSpec_frame (s : State V) (re im : List V) : (s.setSpec re im).frame = s.frame := rfl
@[simp] theorem State.setSpec_specRe (s : State V) (re im : List V) : (s.setSpec re im).specRe = re := rfl
@[simp] theorem State.setSpec_specIm (s : State V) (re im : List V) : (s.setSpec re im).specIm = im := rfl
@[simp] theorem State.setSpec_tw (s : State V) (re im : List V) : (s.setSpec re im).tw = s.tw := rfl
@[simp] theorem State.setSpec_written (s : State V) (re im : List V) : (s.setSpec re im).written = { s.written with spec := true } := rfl
@[simp] theorem State.setSpec_platform (s : State V) (re im : List V) : (s.setSpec re im).platform = s.platform := rfl
@[simp] theorem State.setSpec_host (s : State V) (re im : List V) : (s.setSpec re im).host = s.host := rfl

@[simp] theorem State.setTw_cursor (s : State V) (v : Tw V) : (s.setTw v).cursor = s.cursor := rfl
@[simp] theorem State.setTw_phase (s : State V) (v : Tw V) : (s.setTw v).phase = s.phase := rfl
@[simp] theorem State.setTw_band (s : State V) (v : Tw V) : (s.setTw v).band = s.band := rfl
@[simp] theorem State.setTw_kstar (s : State V) (v : Tw V) : (s.setTw v).kstar = s.kstar := rfl
@[simp] theorem State.setTw_fault (s : State V) (v : Tw V) : (s.setTw v).fault = s.fault := rfl
@[simp] theorem State.setTw_cause (s : State V) (v : Tw V) : (s.setTw v).cause = s.cause := rfl
@[simp] theorem State.setTw_ind (s : State V) (v : Tw V) : (s.setTw v).ind = s.ind := rfl
@[simp] theorem State.setTw_win (s : State V) (v : Tw V) : (s.setTw v).win = s.win := rfl
@[simp] theorem State.setTw_frame (s : State V) (v : Tw V) : (s.setTw v).frame = s.frame := rfl
@[simp] theorem State.setTw_specRe (s : State V) (v : Tw V) : (s.setTw v).specRe = s.specRe := rfl
@[simp] theorem State.setTw_specIm (s : State V) (v : Tw V) : (s.setTw v).specIm = s.specIm := rfl
@[simp] theorem State.setTw_tw (s : State V) (v : Tw V) : (s.setTw v).tw = v := rfl
@[simp] theorem State.setTw_written (s : State V) (v : Tw V) : (s.setTw v).written = { s.written with tw := true } := rfl
@[simp] theorem State.setTw_platform (s : State V) (v : Tw V) : (s.setTw v).platform = s.platform := rfl
@[simp] theorem State.setTw_host (s : State V) (v : Tw V) : (s.setTw v).host = s.host := rfl

/-! No write changes the arithmetic or the transform. -/

@[simp] theorem State.setPhase_arith (s : State Sample) (i : Instr) : (s.setPhase i).arith = s.arith := rfl
@[simp] theorem State.setPhase_transform (s : State Sample) (i : Instr) : (s.setPhase i).transform = s.transform := rfl
@[simp] theorem State.setCursor_arith (s : State Sample) (c : Nat) : (s.setCursor c).arith = s.arith := rfl
@[simp] theorem State.setCursor_transform (s : State Sample) (c : Nat) : (s.setCursor c).transform = s.transform := rfl
@[simp] theorem State.setBand_arith (s : State Sample) (b : Band) : (s.setBand b).arith = s.arith := rfl
@[simp] theorem State.setBand_transform (s : State Sample) (b : Band) : (s.setBand b).transform = s.transform := rfl
@[simp] theorem State.setKstar_arith (s : State Sample) (k : Nat) : (s.setKstar k).arith = s.arith := rfl
@[simp] theorem State.setKstar_transform (s : State Sample) (k : Nat) : (s.setKstar k).transform = s.transform := rfl
@[simp] theorem State.setFault_arith (s : State Sample) (c : BitVec 3) : (s.setFault c).arith = s.arith := rfl
@[simp] theorem State.setFault_transform (s : State Sample) (c : BitVec 3) : (s.setFault c).transform = s.transform := rfl
@[simp] theorem State.setInd_arith (s : State Sample) (v : BitVec 3) : (s.setInd v).arith = s.arith := rfl
@[simp] theorem State.setInd_transform (s : State Sample) (v : BitVec 3) : (s.setInd v).transform = s.transform := rfl
@[simp] theorem State.setWin_arith (s : State Sample) (v : List Sample) : (s.setWin v).arith = s.arith := rfl
@[simp] theorem State.setWin_transform (s : State Sample) (v : List Sample) : (s.setWin v).transform = s.transform := rfl
@[simp] theorem State.setFrame_arith (s : State Sample) (v : List Sample) : (s.setFrame v).arith = s.arith := rfl
@[simp] theorem State.setFrame_transform (s : State Sample) (v : List Sample) : (s.setFrame v).transform = s.transform := rfl
@[simp] theorem State.setSpec_arith (s : State Sample) (re im : List Sample) : (s.setSpec re im).arith = s.arith := rfl
@[simp] theorem State.setSpec_transform (s : State Sample) (re im : List Sample) : (s.setSpec re im).transform = s.transform := rfl
@[simp] theorem State.setTw_arith (s : State Sample) (v : Tw Sample) : (s.setTw v).arith = s.arith := rfl
@[simp] theorem State.setTw_transform (s : State Sample) (v : Tw Sample) : (s.setTw v).transform = s.transform := rfl

/-! The reset state. -/

@[simp] theorem State.afterReset_cursor [Inhabited V] (p : Platform V) (h : List (HostAction V)) : (State.afterReset p h).cursor = 0 := rfl
@[simp] theorem State.afterReset_phase [Inhabited V] (p : Platform V) (h : List (HostAction V)) : (State.afterReset p h).phase = 0x0#4 := rfl
@[simp] theorem State.afterReset_band [Inhabited V] (p : Platform V) (h : List (HostAction V)) : (State.afterReset p h).band = .low := rfl
@[simp] theorem State.afterReset_kstar [Inhabited V] (p : Platform V) (h : List (HostAction V)) : (State.afterReset p h).kstar = 0 := rfl
@[simp] theorem State.afterReset_fault [Inhabited V] (p : Platform V) (h : List (HostAction V)) : (State.afterReset p h).fault = false := rfl
@[simp] theorem State.afterReset_cause [Inhabited V] (p : Platform V) (h : List (HostAction V)) : (State.afterReset p h).cause = 0#3 := rfl
@[simp] theorem State.afterReset_ind [Inhabited V] (p : Platform V) (h : List (HostAction V)) : (State.afterReset p h).ind = 0b000#3 := rfl
@[simp] theorem State.afterReset_win [Inhabited V] (p : Platform V) (h : List (HostAction V)) : (State.afterReset p h).win = List.replicate p.n default := rfl
@[simp] theorem State.afterReset_frame [Inhabited V] (p : Platform V) (h : List (HostAction V)) : (State.afterReset p h).frame = List.replicate p.n default := rfl
@[simp] theorem State.afterReset_specRe [Inhabited V] (p : Platform V) (h : List (HostAction V)) : (State.afterReset p h).specRe = List.replicate p.n default := rfl
@[simp] theorem State.afterReset_specIm [Inhabited V] (p : Platform V) (h : List (HostAction V)) : (State.afterReset p h).specIm = List.replicate p.n default := rfl
@[simp] theorem State.afterReset_tw [Inhabited V] (p : Platform V) (h : List (HostAction V)) : (State.afterReset p h).tw = [] := rfl
@[simp] theorem State.afterReset_written [Inhabited V] (p : Platform V) (h : List (HostAction V)) : (State.afterReset p h).written = Written.none := rfl
@[simp] theorem State.afterReset_platform [Inhabited V] (p : Platform V) (h : List (HostAction V)) : (State.afterReset p h).platform = p := rfl
@[simp] theorem State.afterReset_host [Inhabited V] (p : Platform V) (h : List (HostAction V)) : (State.afterReset p h).host = h := rfl

end Sys2Proof.Block

namespace Sys2Proof.Machine

variable {V : Type}

/-! What `raise ConfigError` writes, and that it writes nothing else (R109). -/

@[simp] theorem raiseConfigError_phase (e : ConfigError) (s : Block.State V) : (raiseConfigError e s).phase = encode .halt := rfl
@[simp] theorem raiseConfigError_fault (e : ConfigError) (s : Block.State V) : (raiseConfigError e s).fault = true := rfl
@[simp] theorem raiseConfigError_cause (e : ConfigError) (s : Block.State V) : (raiseConfigError e s).cause = causeCode (some e) := rfl
@[simp] theorem raiseConfigError_cursor (e : ConfigError) (s : Block.State V) : (raiseConfigError e s).cursor = s.cursor := rfl
@[simp] theorem raiseConfigError_band (e : ConfigError) (s : Block.State V) : (raiseConfigError e s).band = s.band := rfl
@[simp] theorem raiseConfigError_kstar (e : ConfigError) (s : Block.State V) : (raiseConfigError e s).kstar = s.kstar := rfl
@[simp] theorem raiseConfigError_ind (e : ConfigError) (s : Block.State V) : (raiseConfigError e s).ind = s.ind := rfl
@[simp] theorem raiseConfigError_win (e : ConfigError) (s : Block.State V) : (raiseConfigError e s).win = s.win := rfl
@[simp] theorem raiseConfigError_frame (e : ConfigError) (s : Block.State V) : (raiseConfigError e s).frame = s.frame := rfl
@[simp] theorem raiseConfigError_specRe (e : ConfigError) (s : Block.State V) : (raiseConfigError e s).specRe = s.specRe := rfl
@[simp] theorem raiseConfigError_specIm (e : ConfigError) (s : Block.State V) : (raiseConfigError e s).specIm = s.specIm := rfl
@[simp] theorem raiseConfigError_tw (e : ConfigError) (s : Block.State V) : (raiseConfigError e s).tw = s.tw := rfl
@[simp] theorem raiseConfigError_written (e : ConfigError) (s : Block.State V) : (raiseConfigError e s).written = s.written := rfl
@[simp] theorem raiseConfigError_platform (e : ConfigError) (s : Block.State V) : (raiseConfigError e s).platform = s.platform := rfl
@[simp] theorem raiseConfigError_host (e : ConfigError) (s : Block.State V) : (raiseConfigError e s).host = s.host := rfl

theorem hostReset_eq [Inhabited V] (p : Platform V) (s : Block.State V) : hostReset p s = Block.State.afterReset p s.host := rfl

end Sys2Proof.Machine
end

