-- ==== Sys2Proof/Laws/Exec.lean ====
section
/-! SUPPORT. Everything an operation and a step can answer, said once, over any carrier; and that the machine the host runs is
the block over 32-bit words. -/

namespace Sys2Proof.Block

open Sys2Proof.Machine

variable {V : Type} [Inhabited V] {a : Numerics V}

/-! ## Each operation -/

theorem perform_cfgchk_pass {s : State V} (h : configError s.platform = none) :
    perform a .cfgchk s = .next (s.setPhase .winit) := by
  simp only [perform, opCfgchk, h]

theorem perform_cfgchk_error {s : State V} {e : ConfigError} (h : configError s.platform = some e) :
    perform a .cfgchk s = .next (raiseConfigError e s) := by
  simp only [perform, opCfgchk, h]

theorem perform_winit (s : State V) : perform a .winit s =
    .next ((s.setWin (windowTable (a.arith s.platform.arith) s.platform.n)).setPhase .xinit) := rfl

theorem perform_xinit (s : State V) : perform a .xinit s =
    .next ((s.setTw ((a.transform s.platform.xf).init s.platform.xfN)).setPhase .fetch) := rfl

theorem perform_fetch {s : State V} (h : frameMissing s.platform = false) : perform a .fetch s =
    .next ((s.setFrame ((frameAddrs s.platform s.cursor).map s.platform.src.read)).setPhase .adv) := by
  simp [perform, opFetch, h]

theorem perform_adv (s : State V) : perform a .adv s =
    .next ((s.setCursor (modL s.platform.l (s.cursor + s.platform.n))).setPhase .window) := rfl

theorem perform_window (s : State V) : perform a .window s =
    .next ((s.setFrame (windowed (a.arith s.platform.arith) (elems s.platform.n s.frame)
      (elems s.platform.n s.win))).setPhase .xform) := rfl

theorem perform_xform (s : State V) : perform a .xform s =
    .next ((s.setSpec
      ((spectrumOf (a.transform s.platform.xf) s.platform.n s.tw (elems s.platform.n s.frame)).map Prod.fst)
      ((spectrumOf (a.transform s.platform.xf) s.platform.n s.tw (elems s.platform.n s.frame)).map Prod.snd)).setPhase
        .peak) := rfl

theorem perform_peak {s : State V} (h : finiteSpectrum (a.arith s.platform.arith) s.bins = true) : perform a .peak s =
    .next ((s.setKstar (peakBin (a.arith s.platform.arith) s.bins)).setPhase .map) := by
  simp [perform, opPeak, h]

theorem perform_peak_refused {s : State V} (h : finiteSpectrum (a.arith s.platform.arith) s.bins = false) :
    perform a .peak s = .refused .nonFiniteSpectrum := by
  simp [perform, opPeak, h]

theorem perform_map (s : State V) : perform a .map s =
    .next ((s.setBand (bandOf s.platform.fs s.platform.n s.kstar)).setPhase .emit) := rfl

theorem perform_emit (s : State V) : perform a .emit s = .next ((s.setInd (onehot s.band)).setPhase .pace) := rfl

theorem perform_pace (s : State V) : perform a .pace s = .next (s.setPhase .fetch) := rfl

theorem perform_halt (s : State V) : perform a .halt s = .next (s.setPhase .halt) := rfl

/-! ## All operations together -/

/-- If an operation answers a next state, it is this one. -/
theorem perform_next_cases {i : Instr} {s t : State V} (h : perform a i s = .next t) :
    match i with
    | .cfgchk => (∃ e, configError s.platform = some e ∧ t = raiseConfigError e s) ∨
        (configError s.platform = none ∧ t = s.setPhase .winit)
    | .winit  => t = (s.setWin (windowTable (a.arith s.platform.arith) s.platform.n)).setPhase .xinit
    | .xinit  => t = (s.setTw ((a.transform s.platform.xf).init s.platform.xfN)).setPhase .fetch
    | .fetch  => frameMissing s.platform = false ∧
        t = (s.setFrame ((frameAddrs s.platform s.cursor).map s.platform.src.read)).setPhase .adv
    | .adv    => t = (s.setCursor (modL s.platform.l (s.cursor + s.platform.n))).setPhase .window
    | .window => t = (s.setFrame (windowed (a.arith s.platform.arith) (elems s.platform.n s.frame)
        (elems s.platform.n s.win))).setPhase .xform
    | .xform  => t = (s.setSpec
        ((spectrumOf (a.transform s.platform.xf) s.platform.n s.tw (elems s.platform.n s.frame)).map Prod.fst)
        ((spectrumOf (a.transform s.platform.xf) s.platform.n s.tw (elems s.platform.n s.frame)).map Prod.snd)).setPhase
          .peak
    | .peak   => finiteSpectrum (a.arith s.platform.arith) s.bins = true ∧
        t = (s.setKstar (peakBin (a.arith s.platform.arith) s.bins)).setPhase .map
    | .map    => t = (s.setBand (bandOf s.platform.fs s.platform.n s.kstar)).setPhase .emit
    | .emit   => t = (s.setInd (onehot s.band)).setPhase .pace
    | .pace   => t = s.setPhase .fetch
    | .halt   => t = s.setPhase .halt := by
  cases i
  case cfgchk =>
    rcases hc : configError s.platform with _ | e
    · rw [perform_cfgchk_pass hc] at h
      cases h; exact .inr ⟨rfl, rfl⟩
    · rw [perform_cfgchk_error hc] at h
      cases h; exact .inl ⟨e, rfl, rfl⟩
  case fetch =>
    rcases hm : frameMissing s.platform with _ | _
    · rw [perform_fetch hm] at h
      cases h; exact ⟨rfl, rfl⟩
    · simp [perform, opFetch, hm] at h
  case peak =>
    rcases hf : finiteSpectrum (a.arith s.platform.arith) s.bins with _ | _
    · rw [perform_peak_refused hf] at h; cases h
    · rw [perform_peak hf] at h
      cases h; exact ⟨rfl, rfl⟩
  all_goals (cases h; rfl)

/-- No operation writes a parameter (R25) or the host's list. -/
theorem perform_keeps {i : Instr} {s t : State V} (h : perform a i s = .next t) :
    t.platform = s.platform ∧ t.host = s.host := by
  have := perform_next_cases h
  cases i
  case cfgchk => rcases this with ⟨e, -, rfl⟩ | ⟨-, rfl⟩ <;> exact ⟨rfl, rfl⟩
  case fetch => obtain ⟨-, rfl⟩ := this; exact ⟨rfl, rfl⟩
  case peak => obtain ⟨-, rfl⟩ := this; exact ⟨rfl, rfl⟩
  all_goals (simp only at this; subst this; exact ⟨rfl, rfl⟩)

/-! ## The step -/

section Step

variable {exec : Instr → State V → Host.Outcome (State V) Fault Refusal}

omit [Inhabited V] in
theorem runPhase_of_decode {s : State V} {i : Instr} (h : decode s.phase = .ok i) : runPhase exec s = exec i s := by
  simp only [runPhase, h]

theorem stepWith_of_idle {s : State V} {i : Instr} (hh : s.host = []) (h : decode s.phase = .ok i) :
    stepWith exec s = exec i s := by
  simp only [stepWith, hh, runPhase_of_decode h]

theorem stepWith_of_reset {s : State V} {p : Platform V} {r : List (HostAction V)} (hh : s.host = .reset p :: r) :
    stepWith exec s = .next (State.afterReset p r) := by
  simp only [stepWith, hh, hostReset_eq]

/-- If a step answers a next state, either the host reset the block or the operation `PHASE` names answered it. -/
theorem stepWith_next_cases {s t : State V} (h : stepWith exec s = .next t) :
    (∃ p r, s.host = .reset p :: r ∧ t = State.afterReset p r) ∨
    (∃ i r, decode s.phase = .ok i ∧ (s.host = [] ∧ r = [] ∨ s.host = .run :: r) ∧
      exec i { s with host := r } = .next t) := by
  have key : ∀ u : State V, u.phase = s.phase → runPhase exec u = .next t →
      ∃ i, decode s.phase = .ok i ∧ exec i u = .next t := by
    intro u hu hr
    unfold runPhase at hr
    rw [hu] at hr
    split at hr
    · next i hi => exact ⟨i, hi, hr⟩
    · cases hr
  unfold stepWith at h
  split at h
  · next hh =>
    obtain ⟨i, hi, hx⟩ := key s rfl h
    refine .inr ⟨i, [], hi, .inl ⟨hh, rfl⟩, ?_⟩
    rw [← hh]; exact hx
  · next r hh =>
    obtain ⟨i, hi, hx⟩ := key { s with host := r } rfl h
    exact .inr ⟨i, r, hi, .inr hh, hx⟩
  · next p r hh =>
    cases h; exact .inl ⟨p, r, hh, rfl⟩
  · cases h

end Step

theorem step_of_at {s : State V} {i : Instr} (hh : s.host = []) (h : s.phase = encode i) : step a s = perform a i s :=
  stepWith_of_idle hh (by rw [h, decode_encode])

/-! ## One cycle composed of its stages -/

@[simp] theorem cycleFrame_length (p : Platform V) (c : Nat) : (cycleFrame a p c).length = p.n := by
  simp [cycleFrame]

@[simp] theorem cycleSpectrum_length (p : Platform V) (c : Nat) : (cycleSpectrum a p c).length = p.n := by
  simp [cycleSpectrum]

/-- The bins `PEAK` reads, of a spectrum that is a cycle's. -/
theorem bins_of_cycle {s : State V} {c : Nat} (hre : s.specRe = (cycleSpectrum a s.platform c).map Prod.fst)
    (him : s.specIm = (cycleSpectrum a s.platform c).map Prod.snd) :
    s.bins = (cycleSpectrum a s.platform c).take (s.platform.n / 2) := by
  have hl := Nat.div_le_self s.platform.n 2
  rw [State.bins, hre, him, elems_eq_take (by simpa using hl), elems_eq_take (by simpa using hl), ← List.map_take,
    ← List.map_take]
  exact (List.zip_of_prod rfl rfl).symm

end Sys2Proof.Block

/-! ## The machine the host runs -/

namespace Sys2Proof.Machine

/-- Its operations are the block's. -/
theorem exec_eq_perform (i : Instr) (s : State) : exec i s = Block.perform numerics i s := by
  cases i <;> rfl

/-- Its step is the block's. -/
theorem step_eq_step (s : State) : step s = Block.step numerics s := by
  have : exec = Block.perform numerics := funext fun i => funext fun s => exec_eq_perform i s
  rw [step, Block.step, this]

theorem exec_cfgchk_pass {s : State} (h : configError s.platform = none) :
    exec .cfgchk s = .next (s.setPhase .winit) := Block.perform_cfgchk_pass (a := numerics) h

theorem exec_cfgchk_error {s : State} {e : ConfigError} (h : configError s.platform = some e) :
    exec .cfgchk s = .next (raiseConfigError e s) := Block.perform_cfgchk_error (a := numerics) h

theorem exec_winit (s : State) :
    exec .winit s = .next ((s.setWin (windowTable s.arith s.platform.n)).setPhase .xinit) := rfl

theorem exec_xinit (s : State) :
    exec .xinit s = .next ((s.setTw (s.transform.init s.platform.xfN)).setPhase .fetch) := rfl

theorem exec_fetch {s : State} (h : frameMissing s.platform = false) :
    exec .fetch s =
      .next ((s.setFrame ((frameAddrs s.platform s.cursor).map s.platform.src.read)).setPhase .adv) :=
  Block.perform_fetch (a := numerics) h

theorem exec_adv (s : State) :
    exec .adv s = .next ((s.setCursor (modL s.platform.l (s.cursor + s.platform.n))).setPhase .window) := rfl

theorem exec_window (s : State) :
    exec .window s =
      .next ((s.setFrame (windowed s.arith (elems s.platform.n s.frame) (elems s.platform.n s.win))).setPhase .xform) := rfl

theorem exec_xform (s : State) :
    exec .xform s =
      .next ((s.setSpec
        ((spectrumOf s.transform s.platform.n s.tw (elems s.platform.n s.frame)).map Prod.fst)
        ((spectrumOf s.transform s.platform.n s.tw (elems s.platform.n s.frame)).map Prod.snd)).setPhase .peak) := rfl

theorem exec_peak {s : State} (h : finiteSpectrum s.arith s.bins = true) :
    exec .peak s = .next ((s.setKstar (peakBin s.arith s.bins)).setPhase .map) :=
  Block.perform_peak (a := numerics) h

theorem exec_peak_refused {s : State} (h : finiteSpectrum s.arith s.bins = false) :
    exec .peak s = .refused .nonFiniteSpectrum := Block.perform_peak_refused (a := numerics) h

theorem exec_map (s : State) :
    exec .map s = .next ((s.setBand (bandOf s.platform.fs s.platform.n s.kstar)).setPhase .emit) := rfl

theorem exec_emit (s : State) :
    exec .emit s = .next ((s.setInd (onehot s.band)).setPhase .pace) := rfl

theorem exec_pace (s : State) : exec .pace s = .next (s.setPhase .fetch) := rfl

theorem exec_halt (s : State) : exec .halt s = .next (s.setPhase .halt) := rfl

/-- If an operation answers a next state, it is this one. -/
theorem exec_next_cases {i : Instr} {s t : State} (h : exec i s = .next t) :
    match i with
    | .cfgchk => (∃ e, configError s.platform = some e ∧ t = raiseConfigError e s) ∨
        (configError s.platform = none ∧ t = s.setPhase .winit)
    | .winit  => t = (s.setWin (windowTable s.arith s.platform.n)).setPhase .xinit
    | .xinit  => t = (s.setTw (s.transform.init s.platform.xfN)).setPhase .fetch
    | .fetch  => frameMissing s.platform = false ∧
        t = (s.setFrame ((frameAddrs s.platform s.cursor).map s.platform.src.read)).setPhase .adv
    | .adv    => t = (s.setCursor (modL s.platform.l (s.cursor + s.platform.n))).setPhase .window
    | .window => t =
        (s.setFrame (windowed s.arith (elems s.platform.n s.frame) (elems s.platform.n s.win))).setPhase .xform
    | .xform  => t =
        (s.setSpec ((spectrumOf s.transform s.platform.n s.tw (elems s.platform.n s.frame)).map Prod.fst)
          ((spectrumOf s.transform s.platform.n s.tw (elems s.platform.n s.frame)).map Prod.snd)).setPhase .peak
    | .peak   => finiteSpectrum s.arith s.bins = true ∧ t = (s.setKstar (peakBin s.arith s.bins)).setPhase .map
    | .map    => t = (s.setBand (bandOf s.platform.fs s.platform.n s.kstar)).setPhase .emit
    | .emit   => t = (s.setInd (onehot s.band)).setPhase .pace
    | .pace   => t = s.setPhase .fetch
    | .halt   => t = s.setPhase .halt := by
  have := Block.perform_next_cases (a := numerics) (exec_eq_perform i s ▸ h)
  cases i <;> exact this

/-- No operation writes a parameter (R25) or the host's list. -/
theorem exec_keeps {i : Instr} {s t : State} (h : exec i s = .next t) : t.platform = s.platform ∧ t.host = s.host :=
  Block.perform_keeps (a := numerics) (exec_eq_perform i s ▸ h)

theorem step_of_idle {s : State} {i : Instr} (hh : s.host = []) (h : decode s.phase = .ok i) : step s = exec i s :=
  Block.stepWith_of_idle hh h

theorem step_of_at {s : State} {i : Instr} (hh : s.host = []) (h : s.phase = encode i) : step s = exec i s :=
  step_of_idle hh (by rw [h, decode_encode])

/-- If a step answers a next state, either the host reset the block or the operation `PHASE` names answered it. -/
theorem step_next_cases {s t : State} (h : step s = .next t) :
    (∃ p r, s.host = .reset p :: r ∧ t = State.afterReset p r) ∨
    (∃ i r, decode s.phase = .ok i ∧ (s.host = [] ∧ r = [] ∨ s.host = .run :: r) ∧ exec i { s with host := r } = .next t) :=
  Block.stepWith_next_cases h

end Sys2Proof.Machine
end

