-- ==== Sys2Proof/Laws/PerInstr.lean ====
section
/-! SUPPORT. Statements made instruction by instruction. -/

namespace Sys2Proof.Laws.RoundTrip

/-- The operation is well formed, and its code is well formed and decodes to it. -/
def Statement (i : Instr) : Prop :=
  i.wf = true ∧ phaseCodeWf (encode i) = true ∧ decode (encode i) = .ok i

theorem cfgchk : Statement .cfgchk := ⟨rfl, rfl, rfl⟩
theorem winit : Statement .winit := ⟨rfl, rfl, rfl⟩
theorem xinit : Statement .xinit := ⟨rfl, rfl, rfl⟩
theorem fetch : Statement .fetch := ⟨rfl, rfl, rfl⟩
theorem adv : Statement .adv := ⟨rfl, rfl, rfl⟩
theorem window : Statement .window := ⟨rfl, rfl, rfl⟩
theorem xform : Statement .xform := ⟨rfl, rfl, rfl⟩
theorem peak : Statement .peak := ⟨rfl, rfl, rfl⟩
theorem map : Statement .map := ⟨rfl, rfl, rfl⟩
theorem emit : Statement .emit := ⟨rfl, rfl, rfl⟩
theorem pace : Statement .pace := ⟨rfl, rfl, rfl⟩
theorem halt : Statement .halt := ⟨rfl, rfl, rfl⟩

end Sys2Proof.Laws.RoundTrip
end

