-- ==== Sys2Proof/Tests/Slice0.lean ====
section
/-! SUPPORT. Tests. Every expected value is the spec's own: a code of R51 to R56, or a vector of spec/95_test_vectors.md, named
at the test. The witnesses show, for each obligation with a hypothesis, a concrete case that meets its hypotheses. -/

open Sys2Proof
open Sys2Proof.Machine

namespace Sys2Proof.Tests

/-! ## Small states -/

/-- Frame size 8 at 8000 Hz (V20: passes, bins 0, 1000, 2000, 3000 Hz), a silent source of 40 samples. -/
def small : Platform Sample := ⟨8, 8, 8000, 40, [], .recommended, .reference⟩

/-- The small platform after reset, with the sequencer at operation `i`. -/
def at' (i : Instr) : State := { State.afterReset small [] with phase := encode i }

/-- A state of a run at the start of a cycle: the tables hold what startup puts there. -/
def running : State :=
  { at' .fetch with
    win := windowTable (arithOf small.arith) small.n, tw := (transformOf small.xf).init small.n,
    written := { Written.none with win := true, tw := true } }

/-- Another state of a run at the start of a cycle, with results of an earlier cycle in it. -/
def runningLater : State :=
  { running with
    ind := 0b010#3, band := .mid, kstar := 3, frame := List.replicate 8 0x3F800000#32,
    written := ⟨true, true, true, true, true, true⟩ }

/-- A state of a run in which `PEAK` comes next, on a silent spectrum. -/
def peaking : State := { runningLater with phase := 0x7#4 }

/-- What is left of a step that answers a next state. -/
def nextOf : Host.Outcome State Fault Refusal → Option State
  | .next t => some t
  | .fault _ => none
  | .refused _ => none

/-! ## Well-formedness: an ill-formed value for each check -/

theorem test_phaseCode_ill_formed : phaseCodeWf 0xB#4 = false ∧ phaseCodeWf 0xE#4 = false := by decide
theorem test_bandCode_ill_formed : bandCodeWf 0b11#2 = false := by decide
theorem test_causeCode_ill_formed : causeCodeWf 5#3 = false ∧ causeCodeWf 7#3 = false := by decide
theorem test_ind_ill_formed : indWf 0b011#3 = false ∧ indWf 0b111#3 = false := by decide
theorem test_memory_ill_formed :
    Memory.wf [(1, 5#32), (0, 5#32)] = false ∧ Memory.wf [(0, 5#32), (0, 6#32)] = false ∧
    Memory.wf [(0, 0x00000000#32)] = false := by decide
theorem test_all_operations_well_formed : Instr.all.all Instr.wf = true := by decide

/-! ## Decoding: the bits of R51's table, written out -/

theorem test_decode_startup :
    decode 0b0000#4 = .ok .cfgchk ∧ decode 0b0001#4 = .ok .winit ∧ decode 0b0010#4 = .ok .xinit := by decide
theorem test_decode_cycle :
    decode 0b0011#4 = .ok .fetch ∧ decode 0b0100#4 = .ok .adv ∧ decode 0b0101#4 = .ok .window ∧
    decode 0b0110#4 = .ok .xform ∧ decode 0b0111#4 = .ok .peak ∧ decode 0b1000#4 = .ok .map ∧
    decode 0b1001#4 = .ok .emit ∧ decode 0b1010#4 = .ok .pace := by decide
theorem test_decode_halt : decode 0b1111#4 = .ok .halt := by decide
theorem test_decode_reserved :
    decode 0b1011#4 = .error (.reservedCode 0b1011#4) ∧ decode 0b1110#4 = .error (.reservedCode 0b1110#4) := by decide
theorem test_decode_table_word :
    decodeTableWord 8 0b00001010 = some .pace ∧ decodeTableWord 4 0b0111 = some .peak ∧
    decodeTableWord 8 0b00001011 = none ∧ decodeTableWord 8 0b10000011 = none := by decide

/-! ## The operations -/

/-- V20: the cases of the table, causes 0 to 4, the lowest code first. -/
theorem test_cfgchk_causes :
    configError { small with n := 1000, xfN := 512, l := 0 } = some .nNotPow2 ∧
    configError { small with n := 0, xfN := 0 } = some .nNotPow2 ∧
    configError { small with n := 4, xfN := 8 } = some .tableMismatch ∧
    configError { small with n := 4, xfN := 4 } = some .degenerateBands ∧
    configError { small with fs := 5333 } = some .degenerateBands ∧ configError { small with fs := 5334 } = none ∧
    configError { small with fs := 15999 } = none ∧ configError { small with fs := 16000 } = some .degenerateBands ∧
    configError { small with l := 0 } = some .emptySource ∧ configError { small with l := 5 } = none := by decide

/-- V19: what raising cause 1 writes. -/
theorem test_cfgchk_raises :
    nextOf (step (State.afterReset ⟨1000, 1000, 44100, 44100, [], .recommended, .reference⟩ [])) =
      some { State.afterReset ⟨1000, 1000, 44100, 44100, [], .recommended, .reference⟩ [] with
        fault := true, cause := 1#3, phase := 0xF#4 } := by decide +kernel

/-- V5: the table for `N = 8`, to the nearest binary32. -/
theorem test_winit_table :
    (nextOf (step (at' .winit))).map (·.win) =
      some [0x3DA3D70A#32, 0x3E81A2BC#32, 0x3F2471AE#32, 0x3F74568D#32,
            0x3F74568D#32, 0x3F2471AE#32, 0x3E81A2BC#32, 0x3DA3D70A#32] := by decide +kernel

/-- V7: some coefficients for `N = 16`; the coefficient of index 5 is 0.77. -/
theorem test_winit_sixteen :
    Binary32.wcoef 16 1 = 0x3DF5497F#32 ∧ Binary32.wcoef 16 5 = 0x3F451EB8#32 ∧
    Binary32.wcoef 16 8 = 0x3F7D6D3A#32 := by decide +kernel

/-- R72 with R75: the table starts with the cosine of 0, which is 1, and `PHASE` goes to `0x3`. -/
theorem test_xinit_table :
    (nextOf (step (at' .xinit))).map (fun t => (t.tw.head?, t.phase)) = some (some 0x3F800000#32, 0x3#4) := by
  decide +kernel

/-- V21 (a): 16 samples from cursor 32 of 40. -/
theorem test_fetch_wraps :
    frameAddrs { small with n := 16 } 32 = [32, 33, 34, 35, 36, 37, 38, 39, 0, 1, 2, 3, 4, 5, 6, 7] := by decide

/-- V21 (b): a source shorter than the frame; the samples of P2 from cursor 8. -/
theorem test_fetch_short_source :
    (nextOf (exec .fetch { at' .fetch with
      cursor := 8,
      platform := { small with n := 8, l := 5, src := Memory.ofSamples 0 [1#32, 0#32, 3#32, 0#32, 5#32] } })).map
        (fun t => (t.frame, t.cursor)) =
      some ([0#32, 5#32, 1#32, 0#32, 3#32, 0#32, 5#32, 1#32], 8) := by decide +kernel

/-- V22 (a), (b), (f). -/
theorem test_adv_reduces :
    modL 44100 (44032 + 1024) = 956 ∧ modL 40 (32 + 16) = 8 ∧ modL 5 (3 + 16) = 4 := by decide

/-- V22 (c): a source of one frame leaves the cursor. -/
theorem test_adv_one_frame :
    (nextOf (step { at' .adv with platform := { small with l := 8 } })).map (fun t => (t.cursor, t.phase)) =
      some (0, 0x5#4) := by decide +kernel

/-- V8's corner cases: a zero stays zero, `1` gives the coefficient, `-1` minus the coefficient (here those of V5). -/
theorem test_window_corners :
    (nextOf (step { at' .window with
      frame := [0x00000000#32, 0x3F800000#32, 0xBF800000#32, 0x00000000#32,
                0x3F800000#32, 0x3F800000#32, 0x3F800000#32, 0xBF800000#32],
      win := [0x3DA3D70A#32, 0x3E81A2BC#32, 0x3F2471AE#32, 0x3F74568D#32,
              0x3F74568D#32, 0x3F2471AE#32, 0x3E81A2BC#32, 0x3DA3D70A#32] })).map (·.frame) =
      some [0x00000000#32, 0x3E81A2BC#32, 0xBF2471AE#32, 0x00000000#32,
            0x3F74568D#32, 0x3F2471AE#32, 0x3E81A2BC#32, 0xBDA3D70A#32] := by decide +kernel

/-- R75: the transform of a unit impulse is 1 in every real part. -/
theorem test_xform_impulse :
    (nextOf (step { running with phase := 0x6#4, frame := 0x3F800000#32 :: List.replicate 7 0#32 })).map (·.specRe) =
      some (List.replicate 8 0x3F800000#32) := by decide +kernel

/-- R75, sign `-1`: an impulse at index 2 of 8 has entry 1 equal to `-j`. -/
theorem test_xform_sign :
    (nextOf (step { running with phase := 0x6#4, frame := [0#32, 0#32, 0x3F800000#32, 0#32, 0#32, 0#32, 0#32, 0#32] })).map
      (fun t => (t.specRe[1]?.map Binary32.magPat, t.specIm[1]?)) = some (some 0, some 0xBF800000#32) := by decide +kernel

/-- R73, R74: the contract covers a finite frame with its table, but no frame with an infinity, no other table and no length
that is not a power of two or is below 2. -/
theorem test_transform_contract :
    let tw := ReferenceTransform.init 2
    ReferenceTransform.covers tw [0x3F800000#32, 0#32] = true ∧
    ReferenceTransform.covers tw [0x7F800000#32, 0#32] = false ∧ ReferenceTransform.covers [] [0#32, 0#32] = false ∧
    ReferenceTransform.lengthOk 1 = false ∧ ReferenceTransform.lengthOk 6 = false := by decide +kernel

/-- V12: three bins of magnitude 5 tie; the lowest wins. -/
theorem test_peak_ties :
    (nextOf (step { at' .peak with
      platform := { small with n := 16 },
      specRe := [0#32, 0x40400000#32, 0#32, 0x40A00000#32, 0#32, 0xC0A00000#32, 0#32, 0#32],
      specIm := [0#32, 0x40800000#32, 0#32, 0#32, 0#32, 0#32, 0#32, 0#32] })).map (fun t => (t.kstar, t.phase)) =
      some (1, 0x8#4) := by decide +kernel

/-- V14: two sums of squares that differ round to one square root; the tie goes to bin 3. -/
theorem test_peak_tie_by_rounding :
    (nextOf (step { at' .peak with
      platform := { small with n := 16 },
      specRe := [0#32, 0#32, 0#32, 0x45800000#32, 0#32, 0x45800000#32, 0#32, 0#32],
      specIm := [0#32, 0#32, 0#32, 0#32, 0#32, 0x3FC00000#32, 0#32, 0#32] })).map (·.kstar) = some 3 := by decide +kernel

/-- V16: the reference configuration around the thresholds. -/
theorem test_map_reference :
    bandOf 44100 1024 11 = .low ∧ bandOf 44100 1024 12 = .mid ∧ bandOf 44100 1024 46 = .mid ∧
    bandOf 44100 1024 47 = .high := by decide

/-- V17: bins exactly on the thresholds. -/
theorem test_map_on_thresholds :
    (nextOf (step { at' .map with kstar := 1, platform := { small with n := 16 } })).map (·.band) = some .mid ∧
    (nextOf (step { at' .map with kstar := 4, platform := { small with n := 16 } })).map (·.band) = some .high := by
  decide +kernel

/-- V24: all three lines are written, whatever they held. -/
theorem test_emit_overwrites :
    (nextOf (step { at' .emit with band := .mid, ind := 0b100#3 })).map (fun t => (t.ind, t.phase)) =
      some (0b010#3, 0xA#4) := by decide +kernel

/-- V25. -/
theorem test_pace_phase_only : nextOf (step (at' .pace)) = some (at' .fetch) := by decide +kernel
theorem test_halt_stays : nextOf (step (at' .halt)) = some (at' .halt) := by decide +kernel

/-- V26: a reset from `HALT` with cause 3. -/
theorem test_reset_from_halt :
    nextOf (step { at' .halt with fault := true, cause := 3#3, host := [.reset small] }) = some (at' .cfgchk) := by
  decide +kernel

/-- R112, R121: a block halted on an empty source, reset with a source of 40 samples present, passes the check. -/
theorem test_reset_presents_another_platform :
    let halted : State := { at' .halt with
      fault := true, cause := 4#3, platform := { small with l := 0 }, host := [.reset small] }
    (nextOf (step halted)).bind (fun t => nextOf (step t)) = some (at' .winit) := by decide +kernel

/-- The binary32 constants of R58: one minus one half is one half, the root of 25 is 5, overflow is infinite. -/
theorem test_binary32_operations :
    Binary32.add 0x3F800000#32 0xBF000000#32 = 0x3F000000#32 ∧ Binary32.sqrt 0x41C80000#32 = 0x40A00000#32 ∧
    Binary32.mul 0x7F000000#32 0x40000000#32 = 0x7F800000#32 ∧ Binary32.add 0x3F0A3D71#32 0xBEEB851F#32 = 0x3DA3D70C#32 := by
  decide +kernel

/-! ## Witnesses: every hypothesis of every obligation is met -/

theorem witness_StepPerformsTheDecodedOperation :
    decode (at' .peak).phase = .ok .peak ∧ (at' .peak).host = [] ∧ ({ at' .peak with host := [.run] }).host = .run :: [] := by
  decide

theorem witness_FetchWordIsPerformedNext : decodeTableWord 8 0b00000111 = some .peak := by decide

theorem witness_ReservedPhaseHasNoStep :
    let s : State := { at' .cfgchk with phase := 0xB#4 }
    let u : State := { at' .cfgchk with phase := 0xE#4, host := [.run] }
    (s.phase ∈ [0xB#4, 0xC#4, 0xD#4, 0xE#4] ∧ s.host = []) ∧
    (u.phase ∈ [0xB#4, 0xC#4, 0xD#4, 0xE#4] ∧ u.host = .run :: []) := by decide

theorem witness_ResetWinsInEveryState : ({ at' .halt with host := [.reset small] }).host = .reset small :: [] := rfl

theorem witness_NothingSurvivesAReset :
    let s : State := { running with host := [.reset small] }
    let u : State := { runningLater with platform := { small with l := 0 }, host := [.reset small] }
    s ≠ u ∧ s.platform ≠ u.platform ∧ s.host = .reset small :: [] ∧ u.host = .reset small :: [] := by decide +kernel

theorem witness_PowerOffEndsTheObservation : ({ running with host := [.powerOff] }).host = .powerOff :: [] := rfl

/-- One platform for each of the five clauses, on the edges of the conditions. -/
theorem witness_ConfigCheckRaisesTheFirstErrorOrPasses :
    let mid := fun p : Platform Sample => ∃ k, k < p.n / 2 ∧ 500 * p.n ≤ k * p.fs ∧ k * p.fs < 2000 * p.n
    let high := fun p : Platform Sample => ∃ k, k < p.n / 2 ∧ 2000 * p.n ≤ k * p.fs
    (¬ ∃ m, (7 : Nat) = 2 ^ m) ∧
    ((∃ m, (8 : Nat) = 2 ^ m) ∧ (16 : Nat) ≠ 8) ∧
    ((∃ m, (8 : Nat) = 2 ^ m) ∧ small.xfN = 8 ∧ ¬ high { small with fs := 5333 } ∧ ¬ mid { small with fs := 16000 }) ∧
    ((∃ m, (8 : Nat) = 2 ^ m) ∧ mid { small with l := 0 } ∧ high { small with l := 0 } ∧ ({ small with l := 0 }).l = 0) ∧
    ((∃ m, (8 : Nat) = 2 ^ m) ∧ mid { small with fs := 5334, l := 1 } ∧ high { small with fs := 5334, l := 1 } ∧
      mid { small with fs := 15999 } ∧ high { small with fs := 15999 } ∧ ({ small with l := 1 }).l ≠ 0) := by
  have h8 : ∃ m, (8 : Nat) = 2 ^ m := ⟨3, rfl⟩
  refine ⟨?_, ⟨h8, by decide⟩, ⟨h8, rfl, ?_, ?_⟩, ⟨h8, ⟨1, by decide⟩, ⟨2, by decide⟩, rfl⟩,
    ⟨h8, ⟨1, by decide⟩, ⟨3, by decide⟩, ⟨1, by decide⟩, ⟨2, by decide⟩, by decide⟩⟩
  · rw [← isPow2_iff]; decide
  · show ¬ ∃ k, k < 4 ∧ 2000 * 8 ≤ k * 5333
    rintro ⟨k, h1, h2⟩; omega
  · show ¬ ∃ k, k < 4 ∧ 500 * 8 ≤ k * 16000 ∧ k * 16000 < 2000 * 8
    rintro ⟨k, h1, h2, h3⟩; omega

theorem witness_DegenerateMappingClosedForms : 0 < 1 ∧ (2 : Nat) ^ 2 < 8 := by decide

theorem witness_StartupEstablishesItsPremises : configError small = none := by decide

theorem witness_FetchCopiesTheCircularSlice :
    (0 < ({ small with l := 1 }).l ∧ 7 < small.n ∧ 0 < small.n) ∧
    ([1#32, 0#32, 3#32, 0#32, 5#32] : List Sample).length = 5 ∧ 0 < 5 := by decide

theorem witness_FetchFromAnEmptySourceFaults :
    (({ small with l := 0 }).l = 0 ∧ ({ small with l := 0 }).n ≠ 0) ∧
    (({ small with l := 0, n := 0 }).l = 0 ∧ ({ small with l := 0, n := 0 }).n = 0) := by decide

theorem witness_AdvMovesTheCursorByN : 0 < ({ small with l := 1 }).l := by decide

theorem witness_AdvRunsWithAnEmptySource : ({ small with l := 0 }).l = 0 := rfl

theorem witness_CursorSequenceAndItsPeriod : (0 < 40 ∧ 0 < 16) ∧ (1024 ∣ 4096 ∨ 4096 ∣ 1024) ∧ (16 ∣ 1 ∨ 1 ∣ 16) := by decide

theorem witness_WindowMultipliesLaneByLane :
    0 < running.frame.length ∧ 7 < running.win.length ∧ 7 < running.platform.n ∧ 0 < running.platform.n := by decide +kernel

theorem sized_running : Sized running := ⟨by decide +kernel, by decide +kernel, by decide +kernel, by decide +kernel⟩

theorem witness_ZeroSamplesStayZero :
    running.arith.MulZero ∧ Sized running ∧
    ∃ (h : 7 < running.frame.length) (hw : 7 < running.win.length),
      running.arith.isZero (running.frame[7]'h) = true ∧ running.arith.finite (running.win[7]'hw) = true :=
  ⟨Binary32.mulZero, sized_running, by decide +kernel, by decide +kernel, by decide +kernel, by decide +kernel⟩

theorem witness_WindowEndsSymmetryAndRange :
    (2 ≤ 2 ∧ 1 < 2) ∧ ∃ h : 1 < ([-1, 1] : List ℝ).length, 2 ≤ ([-1, 1] : List ℝ).length ∧ 0 < ([-1, 1] : List ℝ)[1] ∧
      ([-1, 1] : List ℝ)[0] < 0 := ⟨by decide, by simp, by simp⟩

theorem witness_WindowCentreAndMonotoneHalves : (2 ≤ 3 ∧ 1 < 3) ∧ 1 ≤ 1 ∧ (0 < 1 ∧ 1 < 2) ∧ (2 ≤ 2 ∧ 2 < 3 ∧ 3 < 2 * 2) := by
  decide

theorem witness_XformReplacesTheSpectrum : running.frame.length = running.platform.n ∧ 7 < running.platform.n := by
  decide +kernel

/-- The transform of R75 itself, with scale `c` and sign `s`. -/
noncomputable def dftOf (c s : ℝ) (x : List ℝ) (k : ℕ) : ℝ × ℝ :=
  (c * ∑ i ∈ Finset.range x.length, x.getD i 0 * Real.cos (2 * Real.pi * k * i / x.length),
   c * s * ∑ i ∈ Finset.range x.length, x.getD i 0 * Real.sin (2 * Real.pi * k * i / x.length))

theorem isDft_dftOf (c s : ℝ) (x : List ℝ) : Reference.IsDft c s x (dftOf c s x) := fun _ _ => ⟨rfl, rfl⟩

/-- A transform over the real numbers with `XF_DFT`. -/
noncomputable def dftTransform (c s : ℝ) : Transform ℝ := ⟨fun _ => [], fun _ x => dftOf c s x⟩

theorem witness_ScaleAndSignLeaveThePeak :
    (Reference.XfDft (dftTransform 1 (-1)) ∧ Reference.XfDft (dftTransform (1 / 16) 1) ∧ 1 ≤ 2 ∧
      ([1, 2, 0, -1] : List ℝ).length = 2 ^ 2) ∧
    (0 : ℝ) < 1 ∧ (0 : ℝ) < 1 / 16 ∧ ((-1 : ℝ) = 1 ∨ (-1 : ℝ) = -1) ∧ ((1 : ℝ) = 1 ∨ (1 : ℝ) = -1) ∧
    Reference.IsDft 1 (-1) [1, 2, 0, -1] (dftOf 1 (-1) [1, 2, 0, -1]) ∧
    Reference.IsDft (1 / 16) 1 [1, 2, 0, -1] (dftOf (1 / 16) 1 [1, 2, 0, -1]) ∧ 2 ≤ ([1, 2, 0, -1] : List ℝ).length :=
  ⟨⟨fun _ _ => ⟨1, -1, by norm_num, .inr rfl, fun _ _ => isDft_dftOf _ _ _⟩,
    fun _ _ => ⟨1 / 16, 1, by norm_num, .inl rfl, fun _ _ => isDft_dftOf _ _ _⟩, by decide, rfl⟩,
   by norm_num, by norm_num, .inr rfl, .inl rfl, isDft_dftOf _ _ _, isDft_dftOf _ _ _, by simp⟩

theorem witness_RealFrameHasAConjugateSpectrum :
    Reference.IsDft 1 (-1) [1, 2, 0, -1] (dftOf 1 (-1) [1, 2, 0, -1]) ∧ 1 ≤ 1 ∧ 3 < ([1, 2, 0, -1] : List ℝ).length :=
  ⟨isDft_dftOf _ _ _, le_rfl, by simp⟩

theorem finiteBins (s : State) (h : finiteSpectrum s.arith s.bins = true) :
    ∀ k, k < s.platform.n / 2 → s.arith.finite (elem s.specRe k) = true ∧ s.arith.finite (elem s.specIm k) = true ∧
      s.arith.finite (magnitude s.arith (elem s.specRe k, elem s.specIm k)) = true := by
  intro k hk
  have := (finiteSpectrum_iff _ _).1 h _ (List.getElem_mem (l := s.bins) (n := k) (by simpa using hk))
  rwa [Block.State.bins_getElem] at this

/-- All clauses: four bins to scan, and one. -/
theorem witness_PeakFindsTheLeastBinOfMaximumMagnitude :
    let s := at' .peak
    let u : State := State.afterReset { small with n := 2 } []
    (∀ k, k < s.platform.n / 2 → s.arith.finite (elem s.specRe k) = true ∧ s.arith.finite (elem s.specIm k) = true ∧
      s.arith.finite (magnitude s.arith (elem s.specRe k, elem s.specIm k)) = true) ∧
    s.arith.GtOrder ∧ 2 ≤ s.platform.n ∧
    (∀ k, k < u.platform.n / 2 → u.arith.finite (elem u.specRe k) = true ∧ u.arith.finite (elem u.specIm k) = true ∧
      u.arith.finite (magnitude u.arith (elem u.specRe k, elem u.specIm k)) = true) ∧
    u.arith.GtOrder ∧ 2 ≤ u.platform.n ∧ u.platform.n < 4 :=
  ⟨finiteBins _ (by decide +kernel), Binary32.gtOrder, by decide, finiteBins _ (by decide +kernel), Binary32.gtOrder,
   by decide, by decide⟩

/-- A spectrum with an infinite component in the last scanned bin, and one whose magnitude overflows in bin 0. -/
theorem witness_PeakRefusesANonFiniteSpectrum :
    (3 < small.n / 2 ∧ Binary32.finite (elem [0#32, 0#32, 0#32, 0x7F800000#32] 3) = false) ∧
    (0 < small.n / 2 ∧ Binary32.finite (magnitude Binary32.arith (elem [0x7F000000#32] 0, elem [0#32] 0)) = false) := by
  decide +kernel

theorem witness_RealPeakIsTheLeastArgmax : ([(0, 1), (1, 0)] : List (ℝ × ℝ)) ≠ [] := by simp

theorem zero_of_eq {v : Sample} (h : v = 0#32) : Binary32.arith.isZero v = true := by subst h; decide

/-- Both clauses: a silent spectrum, and a silent frame with the table startup makes. -/
theorem witness_ZeroSpectrumAndZeroFrameAreLow :
    ((at' .peak).arith.ZeroLaws ∧ 1 ≤ (at' .peak).platform.n ∧
      ∀ k, k < (at' .peak).platform.n / 2 → (at' .peak).arith.isZero (elem (at' .peak).specRe k) = true ∧
        (at' .peak).arith.isZero (elem (at' .peak).specIm k) = true) ∧
    (running.arith.ZeroLaws ∧ running.transform.XfZero running.arith ∧ 1 ≤ 3 ∧ running.platform.n = 2 ^ 3 ∧
      running.frame.length = running.platform.n ∧ running.tw = running.transform.init running.platform.n ∧
      ∀ v ∈ running.frame, running.arith.isZero v = true) := by
  refine ⟨⟨Binary32.zeroLaws, by decide, by decide +kernel⟩, Binary32.zeroLaws, ReferenceTransform.xfZero, by decide,
    by decide +kernel, by decide +kernel, by decide +kernel, fun v hv => zero_of_eq (List.eq_of_mem_replicate (n := 8) hv)⟩

theorem witness_PeakIgnoresTheUpperHalf :
    let s := at' .peak
    let re := [0#32, 0#32, 0#32, 0#32, 0x7F800000#32, 0#32, 0#32, 0x3F800000#32]
    re ≠ s.specRe ∧ (∀ k, k < s.platform.n / 2 → elem re k = elem s.specRe k ∧ elem s.specIm k = elem s.specIm k) ∧
    (∃ t, exec .peak s = .next t) ∧
    exec .peak { s with specRe := List.replicate 8 0x7F800000#32 } = .refused .nonFiniteSpectrum := by
  refine ⟨by decide, by decide +kernel, ⟨_, exec_peak (by decide +kernel)⟩, exec_peak_refused (by decide +kernel)⟩

/-- The three Bands, with a frequency on each threshold. -/
theorem witness_MapGivesTheBandOfTheFrequency :
    let p : Platform Sample := { small with n := 16 }
    (0 * p.fs < 500 * p.n) ∧ (500 * p.n ≤ 1 * p.fs ∧ 3 * p.fs < 2000 * p.n) ∧ (2000 * p.n ≤ 4 * p.fs) ∧ 1 ≤ p.n := by decide

theorem witness_ThresholdBinsGiveTheBand : 1 ≤ 44100 ∧ 1 ≤ 1024 := by decide

theorem witness_ThresholdFrequenciesBelongToTheUpperBand : 1 ≤ 16 ∧ 1 * 8000 = 500 * 16 ∧ 4 * 8000 = 2000 * 16 := by decide

theorem witness_EmitAssertsExactlyOneLine :
    (at' .emit).band = .low ∧ ({ at' .emit with band := .mid }).band = .mid ∧ ({ at' .emit with band := .high }).band = .high :=
  ⟨rfl, rfl, rfl⟩

theorem witness_HaltChangesNothing : (at' .halt).phase = 0xF#4 ∧ (at' .halt).host = [] := by decide

theorem witness_ConfigErrorIsTheEndOfTheRun :
    let s := State.afterReset { small with fs := 16000 } []
    s.host = [] ∧ s.phase = 0x0#4 ∧ configError s.platform = some .degenerateBands ∧ s.ind = 0b000#3 := by decide

/-- Every operation but `PEAK` answers a next state whatever the words in it are; `PEAK` does on a silent spectrum. -/
theorem witness_every_operation_runs : ∀ i, ∃ t, exec i (at' i) = .next t := by
  intro i
  cases i
  case cfgchk => exact ⟨_, exec_cfgchk_pass (by decide)⟩
  case fetch => exact ⟨_, exec_fetch (by decide)⟩
  case peak => exact ⟨_, exec_peak (by decide +kernel)⟩
  all_goals exact ⟨_, rfl⟩

theorem witness_OnlyResetClearsTheFault :
    let s : State := { at' .halt with fault := true, cause := 3#3 }
    step s = .next s ∧ s.fault = true ∧ (∀ p r, s.host ≠ .reset p :: r) ∧ s.phase = 0xF#4 ∧
    ({ s with host := [.reset small] }).host = .reset small :: [] := by
  refine ⟨rfl, rfl, fun p r => by simp [at'], rfl, rfl⟩

/-- For each operation a next state; and, for `CFGCHK`, both outcomes of the check. -/
theorem witness_SuccessorTable :
    (∀ i, ∃ t, exec i (at' i) = .next t) ∧ configError small = none ∧
    (configError { small with l := 0 } ≠ none ∧ ∃ t, exec .cfgchk (State.afterReset { small with l := 0 } []) = .next t) :=
  ⟨witness_every_operation_runs, by decide, by decide, _, exec_cfgchk_error (e := .emptySource) (by decide)⟩

/-- A step of each storage's writer that does change it: the cursor here, and the Band. -/
theorem witness_EachStorageHasItsWriters :
    (∃ t, exec .adv (at' .adv) = .next t ∧ t.cursor ≠ (at' .adv).cursor) ∧
    (∃ t, exec .map { at' .map with kstar := 2 } = .next t ∧ t.band ≠ (at' .map).band) :=
  ⟨⟨_, rfl, by decide⟩, ⟨_, rfl, by decide⟩⟩

/-- A step at which `EMIT` changes the lines, and one at which `CFGCHK` reports an error. -/
theorem witness_OutputsChangeOnlyAtEmitOrTheCheck :
    ((∀ p r, (at' .emit).host ≠ .reset p :: r) ∧ ∃ t, step (at' .emit) = .next t ∧ outputs t ≠ outputs (at' .emit)) ∧
    (let s := State.afterReset { small with l := 0 } []
     (∀ p r, s.host ≠ .reset p :: r) ∧ ∃ t, step s = .next t ∧ outputs t ≠ outputs s) := by
  refine ⟨⟨fun p r => by simp [at'], _, rfl, by decide⟩, fun p r => by simp, _,
    (step_of_idle (i := .cfgchk) rfl rfl).trans (exec_cfgchk_error (e := .emptySource) (by decide)), by decide⟩

/-- A step out of startup into run, one within run, one into `HALT` and one in it. -/
theorem witness_ModesAreLeftOnlyAsStated :
    (decode (at' .xinit).phase = .ok .xinit ∧ (∀ p r, (at' .xinit).host ≠ .reset p :: r) ∧ ∃ t, step (at' .xinit) = .next t) ∧
    (decode (at' .pace).phase = .ok .pace ∧ ∃ t, step (at' .pace) = .next t) ∧
    (decode (at' .halt).phase = .ok .halt ∧ ∃ t, step (at' .halt) = .next t) :=
  ⟨⟨rfl, fun p r => by simp [at'], _, rfl⟩, ⟨rfl, _, rfl⟩, ⟨rfl, _, rfl⟩⟩

/-- A run without a reset, and one through a reset that presents another platform. -/
theorem witness_ParametersAreConstantAlongARun :
    ((∀ p, .reset p ∉ (at' .halt).host) ∧ core.run 2 (at' .halt) = .next (at' .halt)) ∧
    core.run 1 { at' .halt with platform := { small with l := 0 }, host := [.reset small] } = .next (at' .cfgchk) :=
  ⟨⟨fun p => by simp [at'], rfl⟩, rfl⟩

theorem witness_EveryResetMeetsTheInvariant :
    ({ small with src := [(3, 0x3F800000#32)] }).src.wf = true ∧
    ∀ q ∈ [{ small with src := [(0, 0x3F800000#32)] }], HostAction.reset q ∈ [HostAction.run, .reset q] ∧ q.src.wf = true := by
  decide

/-! ### States of a run -/

theorem runInv_running : RunInv running where
  legalPhase   := by decide +kernel
  faultIffHalt := by decide +kernel
  causeRight   := by decide +kernel
  haltOnError  := by decide +kernel
  checked      := by decide +kernel
  indLegal     := by decide +kernel
  indDark      := by decide +kernel
  cursorRange  := by decide +kernel
  cursorZero   := by decide +kernel
  untouched    := by decide +kernel
  winReady     := by decide +kernel
  twReady      := by decide +kernel
  frameReady   := by decide +kernel
  specReady    := by decide +kernel
  kstarReady   := by decide +kernel
  bandReady    := by decide +kernel
  kstarRange   := by decide +kernel
  sized        := sized_running
  srcWf        := by decide +kernel
  hostWf       := fun p h => by simp [running, at'] at h

theorem runInv_runningLater : RunInv runningLater where
  legalPhase   := by decide +kernel
  faultIffHalt := by decide +kernel
  causeRight   := by decide +kernel
  haltOnError  := by decide +kernel
  checked      := by decide +kernel
  indLegal     := by decide +kernel
  indDark      := by decide +kernel
  cursorRange  := by decide +kernel
  cursorZero   := by decide +kernel
  untouched    := by decide +kernel
  winReady     := by decide +kernel
  twReady      := by decide +kernel
  frameReady   := by decide +kernel
  specReady    := by decide +kernel
  kstarReady   := by decide +kernel
  bandReady    := by decide +kernel
  kstarRange   := by decide +kernel
  sized        := ⟨by decide +kernel, by decide +kernel, by decide +kernel, by decide +kernel⟩
  srcWf        := by decide +kernel
  hostWf       := fun p h => by simp [runningLater, running, at'] at h

theorem runInv_peaking : RunInv peaking where
  legalPhase   := by decide +kernel
  faultIffHalt := by decide +kernel
  causeRight   := by decide +kernel
  haltOnError  := by decide +kernel
  checked      := by decide +kernel
  indLegal     := by decide +kernel
  indDark      := by decide +kernel
  cursorRange  := by decide +kernel
  cursorZero   := by decide +kernel
  untouched    := by decide +kernel
  winReady     := by decide +kernel
  twReady      := by decide +kernel
  frameReady   := by decide +kernel
  specReady    := by decide +kernel
  kstarReady   := by decide +kernel
  bandReady    := by decide +kernel
  kstarRange   := by decide +kernel
  sized        := ⟨by decide +kernel, by decide +kernel, by decide +kernel, by decide +kernel⟩
  srcWf        := by decide +kernel
  hostWf       := fun p h => by simp [peaking, runningLater, running, at'] at h

theorem witness_StepKeepsTheInvariant : RunInv running ∧ ∃ t, step running = .next t :=
  ⟨runInv_running, _, (step_of_idle (i := .fetch) rfl rfl).trans (exec_fetch (by decide))⟩

theorem witness_NoRunReadsAnUnwrittenStorage : RunInv peaking ∧ decode peaking.phase = .ok .peak :=
  ⟨runInv_peaking, rfl⟩

/-- At `PEAK`, where the last hypothesis says something, and elsewhere. -/
theorem witness_NoOperationOfARunFails :
    (RunInv peaking ∧ (∀ r, peaking.host ≠ .powerOff :: r) ∧ peaking.phase = 0x7#4 ∧
      finiteSpectrum peaking.arith peaking.bins = true) ∧
    (RunInv running ∧ (∀ r, running.host ≠ .powerOff :: r) ∧ running.phase ≠ 0x7#4) :=
  ⟨⟨runInv_peaking, fun r => by simp [peaking, runningLater, running, at'], rfl, by decide +kernel⟩,
   ⟨runInv_running, fun r => by simp [running, at'], by decide⟩⟩

theorem witness_OneCycleComposesTheStages :
    RunInv running ∧ running.phase = 0x3#4 ∧ running.host = [] ∧ cycleFinite running.platform running.cursor = true :=
  ⟨runInv_running, rfl, rfl, by decide +kernel⟩

/-- Two cycles, from cursors 0 and 8. -/
theorem witness_BandsOfARunAreAFunctionOfTheSlices :
    RunInv running ∧ running.phase = 0x3#4 ∧ running.host = [] ∧
    ∀ j, j < 2 → cycleFinite running.platform ((running.cursor + j * running.platform.n) % running.platform.l) = true :=
  ⟨runInv_running, rfl, rfl, by decide +kernel⟩

/-- Two cycles from reset. -/
theorem witness_RunFromResetEmitsTheBandsOfTheSlices :
    small.src.wf = true ∧ configError small = none ∧ ∀ j, j < 2 → cycleFinite small (j * small.n % small.l) = true := by
  decide +kernel

theorem witness_OnlyTheCursorPassesBetweenCycles :
    running ≠ runningLater ∧ RunInv running ∧ RunInv runningLater ∧ running.phase = 0x3#4 ∧ runningLater.phase = 0x3#4 ∧
    running.host = [] ∧ runningLater.host = [] ∧ running.platform = runningLater.platform ∧
    running.cursor = runningLater.cursor :=
  ⟨by decide +kernel, runInv_running, runInv_runningLater, rfl, rfl, rfl, rfl, rfl, rfl⟩

theorem witness_SilenceIsLowEveryCycle :
    RunInv runningLater ∧ runningLater.phase = 0x3#4 ∧ runningLater.host = [] ∧ runningLater.arith.ZeroLaws ∧
    runningLater.transform.XfZero runningLater.arith ∧
    (∀ i, i < runningLater.platform.n →
      runningLater.arith.finite (runningLater.arith.wcoef runningLater.platform.n i) = true) ∧
    (∀ a, a < runningLater.platform.l → runningLater.arith.isZero (runningLater.platform.src.read a) = true) :=
  ⟨runInv_runningLater, rfl, rfl, Binary32.zeroLaws, ReferenceTransform.xfZero,
   fun i _ => Binary32.finite_wcoef (by decide) i, fun a _ => zero_of_eq rfl⟩

/-- A table that lists one sample, and addresses it lists and does not list. -/
theorem witness_SampleTableReadsAsItsSamples :
    let m : Memory Sample := [(3, 0x3F800000#32)]
    let xs : List Sample := [0#32, 0x3F800000#32]
    m.wf = true ∧ (3, 0x3F800000#32) ∈ m ∧ (∀ v, (0, v) ∉ m) ∧ 1 < xs.length ∧ xs.length ≤ 2 := by
  refine ⟨by decide, by decide, fun v => by simp, by decide, by decide⟩

/-! ### A block over the real numbers -/

/-- The arithmetic of R10's reference semantics, and the transform of R75 with `c = 1`, `s = -1`. -/
noncomputable def realNumerics : Block.Numerics ℝ := ⟨fun _ => Reference.real, fun _ => dftTransform 1 (-1)⟩

/-- The small platform over the real numbers. -/
def smallReal : Platform ℝ := ⟨8, 8, 8000, 40, [], .recommended, .reference⟩

theorem cycleFinite_real (c : Nat) : Block.cycleFinite realNumerics smallReal c = true :=
  (finiteSpectrum_iff _ _).mpr fun _ _ => ⟨rfl, rfl, rfl⟩

/-- Over the real numbers and over 32-bit words. -/
theorem witness_TheBlockRunsOverAnyCarrier :
    (configError smallReal = none ∧ ∀ j, j < 2 → Block.cycleFinite realNumerics smallReal (j * 8 % 40) = true) ∧
    (configError small = none ∧ ∀ j, j < 2 → Block.cycleFinite numerics small (j * small.n % small.l) = true) :=
  ⟨⟨by decide, fun j _ => cycleFinite_real _⟩, by decide +kernel⟩

end Sys2Proof.Tests
end

section
/-! SUPPORT. Startup and cycles of the block over any carrier: the state each ends in, written out, and the `EMIT` events on
the way (R60, R105). -/

namespace Sys2Proof.Block

open Sys2Proof.Machine

variable {V : Type} [Inhabited V] {a : Numerics V}

/-! ## Steps and their events -/

theorem core_run_succ {s t : State V} (h : step a s = .next t) (p : Platform V) (k : Nat) :
    (core a p).run (k + 1) s = (core a p).run k t := by
  have hs : (core a p).step s = .next t := h
  simp only [Host.Core.run, hs]

/-- `k` steps of the block lead from one state to another, and the Bands of their `EMIT` events are these, in order. -/
def Trace (a : Numerics V) : Nat → State V → List Band → State V → Prop
  | 0, s, bs, u => bs = [] ∧ u = s
  | k + 1, s, bs, u => ∃ t cs, step a s = .next t ∧ bs = (emitted s).toList ++ cs ∧ Trace a k t cs u

namespace Trace

theorem done (s : State V) : Trace a 0 s [] s := ⟨rfl, rfl⟩

theorem run {k : Nat} {s u : State V} {bs : List Band} (h : Trace a k s bs u) (p : Platform V) :
    (core a p).run k s = .next u := by
  induction k generalizing s bs with
  | zero =>
    obtain ⟨-, rfl⟩ := h
    rfl
  | succ k ih =>
    obtain ⟨t, cs, hs, -, ht⟩ := h
    exact (core_run_succ hs p k).trans (ih ht)

theorem emits {k : Nat} {s u : State V} {bs : List Band} (h : Trace a k s bs u) : emitsOf (Block.step a) k s = bs := by
  induction k generalizing s bs with
  | zero => exact h.1.symm
  | succ k ih =>
    obtain ⟨t, cs, hs, rfl, ht⟩ := h
    simp only [emitsOf, hs, ih ht]

theorem append {j k : Nat} {s t u : State V} {bs cs : List Band} (h : Trace a j s bs t) (h' : Trace a k t cs u) :
    Trace a (j + k) s (bs ++ cs) u := by
  induction j generalizing s bs with
  | zero =>
    obtain ⟨rfl, rfl⟩ := h
    rwa [Nat.zero_add]
  | succ j ih =>
    obtain ⟨v, ds, hs, rfl, hv⟩ := h
    rw [Nat.add_right_comm]
    exact ⟨v, ds ++ cs, hs, List.append_assoc .., ih hv⟩

/-- A step of an operation other than `EMIT` adds no event. -/
theorem silent {k : Nat} {s t u : State V} {bs : List Band} (i : Instr) (hh : s.host = []) (hi : s.phase = encode i)
    (hne : i ≠ .emit) (hx : perform a i s = .next t) (h : Trace a k t bs u) : Trace a (k + 1) s bs u := by
  have he : emitted s = none := by simp [emitted, hh, hi, hne]
  exact ⟨t, bs, (step_of_at hh hi).trans hx, by rw [he]; rfl, h⟩

/-- A step of `EMIT` adds the event of `BAND`. -/
theorem emit {k : Nat} {s u : State V} {bs : List Band} (hh : s.host = []) (hi : s.phase = encode .emit)
    (h : Trace a k ((s.setInd (onehot s.band)).setPhase .pace) bs u) : Trace a (k + 1) s (s.band :: bs) u := by
  have he : emitted s = some s.band := by simp [emitted, hh, hi]
  exact ⟨_, bs, (step_of_at hh hi).trans (perform_emit s), by rw [he]; rfl, h⟩

end Trace

/-! ## The start and the end of a cycle -/

/-- At the start of the cycle at element `c` on the platform `p`, past startup: nothing pending from the host, no error found, the
tables in place (R123). -/
def AtCycle (a : Numerics V) (p : Platform V) (c : Nat) (s : State V) : Prop :=
  s.phase = encode .fetch ∧ s.host = [] ∧ s.platform = p ∧ s.cursor = c ∧ s.win = windowTable (a.arith p.arith) p.n ∧
  s.tw = (a.transform p.xf).init p.n ∧ s.fault = false ∧ s.cause = 0#3

/-- The buffers, the result registers and the lines hold the stages of the cycle at element `c` (R105). -/
def HoldsCycle (a : Numerics V) (p : Platform V) (c : Nat) (s : State V) : Prop :=
  s.frame = cycleFrame a p c ∧ s.specRe = (cycleSpectrum a p c).map Prod.fst ∧
  s.specIm = (cycleSpectrum a p c).map Prod.snd ∧ s.kstar = cyclePeak a p c ∧ s.band = cycleBand a p c ∧
  s.ind = onehot (cycleBand a p c)

/-- The state one cycle ends in. -/
def afterCycle (a : Numerics V) (s : State V) : State V :=
  { s with
    cursor  := modL s.platform.l (s.cursor + s.platform.n)
    phase   := encode .fetch
    frame   := cycleFrame a s.platform s.cursor
    specRe  := (cycleSpectrum a s.platform s.cursor).map Prod.fst
    specIm  := (cycleSpectrum a s.platform s.cursor).map Prod.snd
    kstar   := cyclePeak a s.platform s.cursor
    band    := cycleBand a s.platform s.cursor
    ind     := onehot (cycleBand a s.platform s.cursor)
    written := { s.written with frame := true, spec := true, kstar := true, band := true } }

theorem atCycle_afterCycle {p : Platform V} {c : Nat} {s : State V} (h : AtCycle a p c s) (hl : 0 < p.l) :
    AtCycle a p ((c + p.n) % p.l) (afterCycle a s) := by
  obtain ⟨-, hh, rfl, rfl, hw, ht, hf, hc⟩ := h
  exact ⟨rfl, hh, rfl, modL_of_pos hl _, hw, ht, hf, hc⟩

theorem holdsCycle_afterCycle {p : Platform V} {c : Nat} {s : State V} (h : AtCycle a p c s) :
    HoldsCycle a p c (afterCycle a s) := by
  obtain ⟨-, -, rfl, rfl, -⟩ := h
  exact ⟨rfl, rfl, rfl, rfl, rfl, rfl⟩

/-! ## The numeric stages of a cycle -/

theorem perform_window_of_cycle {s : State V} {c : Nat}
    (hx : s.frame = (frameAddrs s.platform c).map s.platform.src.read)
    (hw : s.win = windowTable (a.arith s.platform.arith) s.platform.n) :
    perform a .window s = .next ((s.setFrame (cycleFrame a s.platform c)).setPhase .xform) := by
  rw [perform_window, hx, hw, elems_self (by simp), elems_self (by simp), cycleFrame]

theorem perform_xform_of_cycle {s : State V} {c : Nat} (hx : s.frame = cycleFrame a s.platform c)
    (ht : s.tw = (a.transform s.platform.xf).init s.platform.n) :
    perform a .xform s = .next ((s.setSpec ((cycleSpectrum a s.platform c).map Prod.fst)
      ((cycleSpectrum a s.platform c).map Prod.snd)).setPhase .peak) := by
  rw [perform_xform, hx, ht, elems_self (by simp), cycleSpectrum]

theorem perform_peak_of_cycle {s : State V} {c : Nat} (hre : s.specRe = (cycleSpectrum a s.platform c).map Prod.fst)
    (him : s.specIm = (cycleSpectrum a s.platform c).map Prod.snd) (hf : cycleFinite a s.platform c = true) :
    perform a .peak s = .next ((s.setKstar (cyclePeak a s.platform c)).setPhase .map) := by
  have hb := bins_of_cycle hre him
  rw [perform_peak (hb ▸ hf), hb, cyclePeak]

/-! ## One cycle and many -/

/-- R105: a cycle is the composition of its stages, with one event. -/
theorem trace_cycle {p : Platform V} {c : Nat} {s : State V} (h : AtCycle a p c s) (hl : 0 < p.l)
    (hf : cycleFinite a p c = true) : Trace a cycleSteps s [cycleBand a p c] (afterCycle a s) := by
  obtain ⟨hp, hh, rfl, rfl, hw, ht, -, -⟩ := h
  refine .silent .fetch hh hp (by decide) (perform_fetch (frameMissing_eq_false hl)) ?_
  refine .silent .adv hh rfl (by decide) (perform_adv _) ?_
  refine .silent .window hh rfl (by decide) (perform_window_of_cycle (c := s.cursor) rfl hw) ?_
  refine .silent .xform hh rfl (by decide) (perform_xform_of_cycle (c := s.cursor) rfl ht) ?_
  refine .silent .peak hh rfl (by decide) (perform_peak_of_cycle (c := s.cursor) rfl rfl hf) ?_
  refine .silent .map hh rfl (by decide) (perform_map _) ?_
  refine .emit hh rfl ?_
  exact .silent .pace hh rfl (by decide) (perform_pace _) (.done _)

/-- R105, R98: `m` cycles from element `c`, the `j`-th of them at `(c + j·N) mod L`. -/
theorem trace_cycles {p : Platform V} {c : Nat} {s : State V} (h : AtCycle a p c s) (hc : c < p.l) (m : Nat)
    (hf : ∀ j, j < m → cycleFinite a p ((c + j * p.n) % p.l) = true) :
    AtCycle a p ((c + m * p.n) % p.l) ((afterCycle a)^[m] s) ∧
    Trace a (m * cycleSteps) s ((List.range m).map fun j => cycleBand a p ((c + j * p.n) % p.l))
      ((afterCycle a)^[m] s) := by
  have hl : 0 < p.l := Nat.zero_lt_of_lt hc
  induction m with
  | zero =>
    rw [Nat.zero_mul, Nat.add_zero, Nat.mod_eq_of_lt hc, Nat.zero_mul]
    exact ⟨h, .done s⟩
  | succ m ih =>
    obtain ⟨hat, htr⟩ := ih fun j hj => hf j (Nat.lt_succ_of_lt hj)
    have hcur : (c + (m + 1) * p.n) % p.l = ((c + m * p.n) % p.l + p.n) % p.l := by
      rw [Nat.mod_add_mod, Nat.succ_mul, Nat.add_assoc]
    rw [Function.iterate_succ_apply', hcur, Nat.succ_mul, List.range_succ, List.map_append]
    exact ⟨atCycle_afterCycle hat hl, htr.append (trace_cycle hat hl (hf m (Nat.lt_succ_self m)))⟩

/-! ## Startup -/

/-- The state startup ends in, on a platform that passes the check. -/
def afterStartup (a : Numerics V) (p : Platform V) : State V :=
  (((State.afterReset p []).setWin (windowTable (a.arith p.arith) p.n)).setTw ((a.transform p.xf).init p.xfN)).setPhase .fetch

/-- R123: what startup leaves; the table for `XF_N` is the one for `N`. -/
theorem atCycle_afterStartup {p : Platform V} (h : configError p = none) : AtCycle a p 0 (afterStartup a p) := by
  obtain ⟨-, hx, -, -⟩ := (configError_eq_none_iff p).mp h
  exact ⟨rfl, rfl, rfl, rfl, rfl, congrArg _ hx, rfl, rfl⟩

theorem trace_startup {p : Platform V} (h : configError p = none) :
    Trace a initSteps (State.afterReset p []) [] (afterStartup a p) := by
  refine .silent .cfgchk rfl rfl (by decide) (perform_cfgchk_pass h) ?_
  refine .silent .winit rfl rfl (by decide) (perform_winit _) ?_
  exact .silent .xinit rfl rfl (by decide) (perform_xinit _) (.done _)

/-- R123, R105: startup and `m` cycles. -/
theorem trace_runFromReset {p : Platform V} (h : configError p = none) (m : Nat)
    (hf : ∀ j, j < m → cycleFinite a p (j * p.n % p.l) = true) :
    AtCycle a p (m * p.n % p.l) ((afterCycle a)^[m] (afterStartup a p)) ∧
    Trace a (initSteps + m * cycleSteps) (State.afterReset p [])
      ((List.range m).map fun j => cycleBand a p (j * p.n % p.l)) ((afterCycle a)^[m] (afterStartup a p)) := by
  obtain ⟨hl, -⟩ := configError_none_bounds h
  have hc := trace_cycles (atCycle_afterStartup (a := a) h) hl m
  simp only [Nat.zero_add] at hc
  obtain ⟨hat, htr⟩ := hc hf
  exact ⟨hat, (trace_startup h).append htr⟩

end Sys2Proof.Block
end

section
/-! The block over any carrier (00_scope.md). -/

namespace Sys2Proof.Block

open Sys2Proof.Machine

/-- Settles O60: after startup every cycle is its composed stages on the slice at the cursor, by induction on the cycles. -/
theorem theBlockRunsOverAnyCarrier : Obligations.TheBlockRunsOverAnyCarrier := by
  intro V _ a p m hp hf
  obtain ⟨hat, htr⟩ := trace_runFromReset hp m hf
  obtain ⟨hphase, -, hplatform, hcursor, hwin, htw, hfault, hcause⟩ := hat
  refine ⟨_, htr.run p, hphase, hcursor, hfault, hcause, hplatform, hwin, htw, ?_, ?_, htr.emits⟩
  · rintro rfl
    rfl
  · rintro j rfl
    obtain ⟨hprev, -⟩ := trace_runFromReset hp j fun i hi => hf i (Nat.lt_succ_of_lt hi)
    rw [Function.iterate_succ_apply']
    exact holdsCycle_afterCycle hprev

end Sys2Proof.Block
end

section
/-! SUPPORT. The sequencer: the operation that follows each one (R92), and what each operation leaves as it was (R17), over any
carrier. -/

namespace Sys2Proof

/-- The decoder and the encoder are inverse to each other (R62). -/
theorem decode_eq_ok_iff {c : PhaseCode} {i : Instr} : decode c = .ok i ↔ c = encode i := by
  have key : ∀ c : PhaseCode, (decode c).toOption.all fun i => c == encode i := by decide
  constructor
  · intro h
    simpa [h, Except.toOption] using key c
  · rintro rfl
    exact decode_encode i

end Sys2Proof

namespace Sys2Proof.Block

open Sys2Proof.Machine

variable {V : Type}

theorem State.isAt_iff {s : State V} {i : Instr} (h : s.phase = encode i) {is : List Instr} : s.isAt is ↔ i ∈ is := by
  show s.phase ∈ is.map encode ↔ i ∈ is
  rw [h]
  exact List.mem_map_of_injective fun _ _ => encode_injective

/-! ## The operation that follows -/

/-- The operation that follows `i` on the platform `p` (R92). -/
def successor (p : Platform V) : Instr → Instr
  | .cfgchk => if configError p = none then .winit else .halt
  | .winit  => .xinit
  | .xinit  => .fetch
  | .fetch  => .adv
  | .adv    => .window
  | .window => .xform
  | .xform  => .peak
  | .peak   => .map
  | .map    => .emit
  | .emit   => .pace
  | .pace   => .fetch
  | .halt   => .halt

variable {p : Platform V} {i : Instr}

theorem successor_cfgchk_pass (h : configError p = none) : successor p .cfgchk = .winit := if_pos h
theorem successor_cfgchk_error (h : configError p ≠ none) : successor p .cfgchk = .halt := if_neg h
@[simp] theorem successor_winit : successor p .winit = .xinit := rfl
@[simp] theorem successor_xinit : successor p .xinit = .fetch := rfl
@[simp] theorem successor_fetch : successor p .fetch = .adv := rfl
@[simp] theorem successor_adv : successor p .adv = .window := rfl
@[simp] theorem successor_window : successor p .window = .xform := rfl
@[simp] theorem successor_xform : successor p .xform = .peak := rfl
@[simp] theorem successor_peak : successor p .peak = .map := rfl
@[simp] theorem successor_map : successor p .map = .emit := rfl
@[simp] theorem successor_emit : successor p .emit = .pace := rfl
@[simp] theorem successor_pace : successor p .pace = .fetch := rfl
@[simp] theorem successor_halt : successor p .halt = .halt := rfl

theorem successor_cfgchk_eq_halt_iff : successor p .cfgchk = .halt ↔ configError p ≠ none := by
  by_cases h : configError p = none
  · simp [successor_cfgchk_pass h, h]
  · simp [successor_cfgchk_error h, h]

/-- The check leads to `WINIT` or to `HALT`. -/
theorem successor_cfgchk_cases : successor p .cfgchk = .winit ∨ successor p .cfgchk = .halt :=
  (em (configError p = none)).imp successor_cfgchk_pass successor_cfgchk_error

theorem perform_phase [Inhabited V] {a : Numerics V} {s t : State V} (h : perform a i s = .next t) :
    t.phase = encode (successor s.platform i) := by
  have ht := perform_next_cases h
  cases i
  case cfgchk =>
    rcases ht with ⟨e, he, rfl⟩ | ⟨he, rfl⟩
    · rw [successor_cfgchk_error (by simp [he]), raiseConfigError_phase]
    · rw [successor_cfgchk_pass he, State.setPhase_phase]
  case fetch => obtain ⟨-, rfl⟩ := ht; rfl
  case peak => obtain ⟨-, rfl⟩ := ht; rfl
  all_goals (simp only at ht; subst ht; rfl)

/-- `HALT` is entered at the check alone. -/
theorem successor_eq_halt_iff (h : i ≠ .cfgchk) : successor p i = .halt ↔ i = .halt := by
  cases i
  case cfgchk => exact absurd rfl h
  all_goals simp

/-- The check and `HALT` lead to `WINIT` and `HALT`, and no other operation does. -/
theorem successor_mem_check_iff : successor p i ∈ [.cfgchk, .winit, .halt] ↔ i ∈ [.cfgchk, .halt] := by
  cases i
  case cfgchk => rcases successor_cfgchk_cases (p := p) with h | h <;> simp [h]
  all_goals simp

/-- Startup and `HALT` follow upon the start of startup and `HALT`, and upon no other operation. -/
theorem successor_mem_startup_iff :
    successor p i ∈ [.cfgchk, .winit, .xinit, .halt] ↔ i ∈ [.cfgchk, .winit, .halt] := by
  cases i
  case cfgchk => rcases successor_cfgchk_cases (p := p) with h | h <;> simp [h]
  all_goals simp

/-- Every operation of the cycle but `FETCH` follows upon one operation alone. -/
theorem eq_of_successor_eq {j : Instr} (hj : j ∈ [.fetch, .adv, .window, .xform, .peak, .map, .emit])
    (h : successor p i = successor p j) : i = j := by
  revert hj h
  cases i
  case cfgchk => rcases successor_cfgchk_cases (p := p) with h | h <;> rw [h] <;> cases j <;> simp
  all_goals (cases j <;> simp)

/-! ## What an operation leaves as it was -/

/-- An operation changes a storage, or its mark, only where R17 lists it among the writers. (That none changes a parameter or a
pending host action is `perform_keeps`.) -/
theorem perform_frame [Inhabited V] {a : Numerics V} {s t : State V} (h : perform a i s = .next t) :
    (i ≠ .adv → t.cursor = s.cursor) ∧
    (i ≠ .map → t.band = s.band) ∧
    (i ≠ .peak → t.kstar = s.kstar ∧ t.written.kstar = s.written.kstar) ∧
    (i ≠ .cfgchk → t.fault = s.fault ∧ t.cause = s.cause) ∧
    (i ≠ .emit → t.ind = s.ind) ∧
    (i ≠ .winit → t.win = s.win ∧ t.written.win = s.written.win) ∧
    (i ≠ .fetch → i ≠ .window → t.frame = s.frame ∧ t.written.frame = s.written.frame) ∧
    (i ≠ .xform → t.specRe = s.specRe ∧ t.specIm = s.specIm) ∧
    (i ≠ .xinit → t.tw = s.tw ∧ t.written.tw = s.written.tw) ∧
    (i ∈ [.cfgchk, .halt] → t.written = s.written) := by
  have ht := perform_next_cases h
  cases i
  case cfgchk => rcases ht with ⟨e, -, rfl⟩ | ⟨-, rfl⟩ <;> simp
  case fetch => obtain ⟨-, rfl⟩ := ht; simp
  case peak => obtain ⟨-, rfl⟩ := ht; simp
  all_goals (simp only at ht; subst ht; simp)

/-! ## The step -/

theorem stepWith_of_run [Inhabited V] {exec : Instr → State V → Host.Outcome (State V) Fault Refusal} {s : State V}
    {r : List (HostAction V)} (hh : s.host = .run :: r) (h : decode s.phase = .ok i) :
    stepWith exec s = exec i { s with host := r } := by
  simp only [stepWith, hh]
  exact runPhase_of_decode h

/-- A step keeps the parameters, or takes the ones a pending reset presents; and what is pending after it was so before. -/
theorem step_platform [Inhabited V] {a : Numerics V} {s t : State V} (h : step a s = .next t) :
    (t.platform = s.platform ∨ .reset t.platform ∈ s.host) ∧ t.host ⊆ s.host := by
  rcases stepWith_next_cases h with ⟨p, r, hh, rfl⟩ | ⟨i, r, -, hh, hx⟩
  · simp [hh]
  · obtain ⟨hp, hr⟩ := perform_keeps hx
    refine ⟨.inl hp, ?_⟩
    rw [hr]
    rcases hh with ⟨hh, rfl⟩ | hh <;> simp [hh]

/-- Of two spectra that agree on entries `0 .. N/2-1` the classifier reads the same bins (R28). -/
theorem State.bins_congr [Inhabited V] {s u : State V} (hp : u.platform = s.platform)
    (h : ∀ k, k < s.platform.n / 2 → elem u.specRe k = elem s.specRe k ∧ elem u.specIm k = elem s.specIm k) :
    u.bins = s.bins := by
  have hlen : u.bins.length = s.bins.length := by simp [hp]
  refine List.ext_getElem hlen fun k hu hs => ?_
  obtain ⟨hre, him⟩ := h k (by simpa using hs)
  rw [State.bins_getElem, State.bins_getElem, hre, him]

end Sys2Proof.Block

namespace Sys2Proof.Machine

open Sys2Proof.Block

section Exec

variable {i : Instr} {s t : State} (h : exec i s = .next t)

include h

theorem perform_of_exec : perform numerics i s = .next t := exec_eq_perform i s ▸ h

theorem exec_phase : t.phase = encode (successor s.platform i) :=
  perform_phase (perform_of_exec h)

theorem exec_platform : t.platform = s.platform := (exec_keeps h).1

theorem exec_host : t.host = s.host := (exec_keeps h).2

theorem exec_arith : t.arith = s.arith := by
  show arithOf t.platform.arith = arithOf s.platform.arith
  rw [exec_platform h]

theorem exec_transform : t.transform = s.transform := by
  show transformOf t.platform.xf = transformOf s.platform.xf
  rw [exec_platform h]

theorem exec_cursor : i ≠ .adv → t.cursor = s.cursor :=
  let ⟨hcursor, _⟩ := perform_frame (perform_of_exec h); hcursor

theorem exec_band : i ≠ .map → t.band = s.band :=
  let ⟨_, hband, _⟩ := perform_frame (perform_of_exec h); hband

theorem exec_kstar : i ≠ .peak → t.kstar = s.kstar ∧ t.written.kstar = s.written.kstar :=
  let ⟨_, _, hkstar, _⟩ := perform_frame (perform_of_exec h); hkstar

theorem exec_status : i ≠ .cfgchk → t.fault = s.fault ∧ t.cause = s.cause :=
  let ⟨_, _, _, hstatus, _⟩ := perform_frame (perform_of_exec h); hstatus

theorem exec_ind : i ≠ .emit → t.ind = s.ind :=
  let ⟨_, _, _, _, hind, _⟩ := perform_frame (perform_of_exec h); hind

theorem exec_win : i ≠ .winit → t.win = s.win ∧ t.written.win = s.written.win :=
  let ⟨_, _, _, _, _, hwin, _⟩ := perform_frame (perform_of_exec h); hwin

theorem exec_frame : i ≠ .fetch → i ≠ .window → t.frame = s.frame ∧ t.written.frame = s.written.frame :=
  let ⟨_, _, _, _, _, _, hframe, _⟩ := perform_frame (perform_of_exec h); hframe

theorem exec_spec : i ≠ .xform → t.specRe = s.specRe ∧ t.specIm = s.specIm :=
  let ⟨_, _, _, _, _, _, _, hspec, _⟩ := perform_frame (perform_of_exec h); hspec

theorem exec_tw : i ≠ .xinit → t.tw = s.tw ∧ t.written.tw = s.written.tw :=
  let ⟨_, _, _, _, _, _, _, _, htw, _⟩ := perform_frame (perform_of_exec h); htw

theorem exec_marks : i ∈ [.cfgchk, .halt] → t.written = s.written :=
  let ⟨_, _, _, _, _, _, _, _, _, hmarks⟩ := perform_frame (perform_of_exec h); hmarks

end Exec

end Sys2Proof.Machine
end

section
/-! SUPPORT. The invariant of every run (R24, R30, R97, R123): it holds after a reset, and every operation keeps it. -/

namespace Sys2Proof.Machine

open Sys2Proof.Block

theorem isAt_afterReset {p : Platform Sample} {h : List (HostAction Sample)} {is : List Instr} :
    (State.afterReset p h).isAt is ↔ .cfgchk ∈ is := State.isAt_iff rfl

theorem runInv_afterReset {p : Platform Sample} {h : List (HostAction Sample)} (hp : p.src.wf = true)
    (hh : ∀ q, .reset q ∈ h → q.src.wf = true) : RunInv (State.afterReset p h) where
  legalPhase   := rfl
  faultIffHalt := by simp [isAt_afterReset]
  causeRight   := rfl
  haltOnError  := by simp [isAt_afterReset]
  checked      := by simp [isAt_afterReset]
  indLegal     := rfl
  indDark _    := rfl
  cursorRange  := by simp [isAt_afterReset]
  cursorZero _ := rfl
  untouched _  := rfl
  winReady     := by simp [isAt_afterReset]
  twReady      := by simp [isAt_afterReset]
  frameReady   := by simp [isAt_afterReset]
  specReady    := by simp [isAt_afterReset]
  kstarReady   := by simp [isAt_afterReset]
  bandReady    := by simp [isAt_afterReset]
  kstarRange h := absurd h Bool.false_ne_true
  sized        := by constructor <;> simp
  srcWf        := hp
  hostWf       := hh

/-- What the host still does is no matter to the invariant, as long as nothing is added. -/
theorem RunInv.of_host_subset {s : State} (hs : RunInv s) {r : List (HostAction Sample)} (hr : r ⊆ s.host) :
    RunInv { s with host := r } :=
  { hs with
    sized  := ⟨hs.sized.win, hs.sized.frame, hs.sized.specRe, hs.sized.specIm⟩
    hostWf := fun p hp => hs.hostWf p (hr hp) }

section Operation

variable {s t : State} {i : Instr} (hs : RunInv s) (hi : s.phase = encode i) (hx : exec i s = .next t)

include hs hi hx

/-! ## `FAULT`, `CAUSE` and the check -/

theorem faultIffHalt_of_exec : t.fault = true ↔ t.isAt [.halt] := by
  rw [State.isAt_iff (exec_phase hx), List.mem_singleton]
  have hfault : s.fault = true ↔ i = .halt := by
    rw [hs.faultIffHalt, State.isAt_iff hi, List.mem_singleton]
  by_cases hc : i = .cfgchk
  · subst hc
    rw [successor_cfgchk_eq_halt_iff]
    rcases exec_next_cases hx with ⟨e, he, rfl⟩ | ⟨he, rfl⟩ <;> simp [he, hfault]
  · obtain ⟨hf, -⟩ := exec_status hx hc
    rw [successor_eq_halt_iff hc, hf, hfault]

omit hi in
theorem causeRight_of_exec : t.cause = causeCode (if t.fault then configError t.platform else none) := by
  by_cases hc : i = .cfgchk
  · subst hc
    rcases exec_next_cases hx with ⟨e, he, rfl⟩ | ⟨he, rfl⟩
    · simp [he]
    · exact hs.causeRight
  · obtain ⟨hf, hcause⟩ := exec_status hx hc
    rw [hf, hcause, exec_platform hx]
    exact hs.causeRight

theorem haltOnError_of_exec : t.isAt [.halt] → configError t.platform ≠ none := by
  rw [State.isAt_iff (exec_phase hx), List.mem_singleton, exec_platform hx]
  intro ht
  by_cases hc : i = .cfgchk
  · exact successor_cfgchk_eq_halt_iff.mp (hc ▸ ht)
  · rw [successor_eq_halt_iff hc] at ht
    exact hs.haltOnError ((State.isAt_iff hi).mpr (by simp [ht]))

theorem checked_of_exec : ¬ t.isAt [.cfgchk, .halt] → configError t.platform = none := by
  rw [State.isAt_iff (exec_phase hx), exec_platform hx]
  intro ht
  have hne : successor s.platform i ≠ .halt := fun h => ht (by simp [h])
  by_cases hc : i = .cfgchk
  · subst hc
    exact not_not.mp (mt successor_cfgchk_eq_halt_iff.mpr hne)
  · rw [Ne, successor_eq_halt_iff hc] at hne
    exact hs.checked ((State.isAt_iff hi).not.mpr (by simp [hc, hne]))

/-! ## `IND` and `CURSOR` -/

omit hi in
theorem indLegal_of_exec : indWf t.ind = true := by
  by_cases he : i = .emit
  · subst he
    obtain rfl : t = _ := exec_next_cases hx
    simp
  · rw [exec_ind hx he]
    exact hs.indLegal

/-- Where startup or `HALT` comes next, the step was one of startup or `HALT`, and wrote neither `IND` nor `CURSOR`. -/
theorem ind_cursor_of_exec_startup (ht : t.isAt [.cfgchk, .winit, .xinit, .halt]) : t.ind = 0b000#3 ∧ t.cursor = 0 := by
  rw [State.isAt_iff (exec_phase hx), successor_mem_startup_iff] at ht
  have hmem : s.isAt [.cfgchk, .winit, .xinit, .halt] := (State.isAt_iff hi).mpr (by grind)
  have hemit : i ≠ .emit := by rintro rfl; simp at ht
  have hadv : i ≠ .adv := by rintro rfl; simp at ht
  rw [exec_ind hx hemit, exec_cursor hx hadv]
  exact ⟨hs.indDark hmem, hs.cursorZero hmem⟩

theorem cursorRange_of_exec (ht : ¬ t.isAt [.cfgchk, .halt]) : t.cursor < t.platform.l := by
  obtain ⟨hl, -⟩ := configError_none_bounds (checked_of_exec hs hi hx ht)
  by_cases ha : i = .adv
  · subst ha
    obtain rfl : t = _ := exec_next_cases hx
    exact modL_lt hl _
  rw [exec_cursor hx ha]
  rw [exec_platform hx] at hl ⊢
  by_cases hz : s.isAt [.cfgchk, .winit, .xinit, .halt]
  · rwa [hs.cursorZero hz]
  · refine hs.cursorRange fun h => hz ?_
    rw [State.isAt_iff hi] at h ⊢
    grind

/-! ## The tables, the marks and the buffers -/

theorem untouched_of_exec (ht : t.isAt [.cfgchk, .winit, .halt]) : t.written = Written.none := by
  rw [State.isAt_iff (exec_phase hx), successor_mem_check_iff] at ht
  rw [exec_marks hx ht]
  exact hs.untouched ((State.isAt_iff hi).mpr (by grind))

theorem winReady_of_exec (ht : ¬ t.isAt [.cfgchk, .winit, .halt]) :
    t.written.win = true ∧ t.win = windowTable t.arith t.platform.n := by
  rw [State.isAt_iff (exec_phase hx), successor_mem_check_iff] at ht
  by_cases hw : i = .winit
  · subst hw
    obtain rfl : t = _ := exec_next_cases hx
    exact ⟨rfl, rfl⟩
  · obtain ⟨hwin, hmark⟩ := exec_win hx hw
    rw [hwin, hmark, exec_arith hx, exec_platform hx]
    exact hs.winReady ((State.isAt_iff hi).not.mpr (by grind))

theorem twReady_of_exec (ht : ¬ t.isAt [.cfgchk, .winit, .xinit, .halt]) :
    t.written.tw = true ∧ t.tw = t.transform.init t.platform.n := by
  rw [State.isAt_iff (exec_phase hx), successor_mem_startup_iff] at ht
  by_cases hw : i = .xinit
  · subst hw
    have hc := hs.checked ((State.isAt_iff hi).not.mpr (by simp))
    obtain ⟨-, hxfN, -⟩ := (configError_eq_none_iff _).mp hc
    obtain rfl : t = _ := exec_next_cases hx
    exact ⟨rfl, congrArg _ hxfN⟩
  · obtain ⟨htw, hmark⟩ := exec_tw hx hw
    rw [htw, hmark, exec_transform hx, exec_platform hx]
    exact hs.twReady ((State.isAt_iff hi).not.mpr (by grind))

theorem frameReady_of_exec (ht : t.isAt [.adv, .window, .xform]) : t.written.frame = true := by
  rw [State.isAt_iff (exec_phase hx)] at ht
  by_cases hf : i = .fetch
  · subst hf
    obtain ⟨-, rfl⟩ := exec_next_cases hx
    rfl
  by_cases hw : i = .window
  · subst hw
    obtain rfl : t = _ := exec_next_cases hx
    rfl
  have ha : i = .adv := by
    simp only [List.mem_cons, List.not_mem_nil, or_false] at ht
    rcases ht with h | h | h
    · exact absurd (eq_of_successor_eq (j := .fetch) (by simp) h) hf
    · exact eq_of_successor_eq (j := .adv) (by simp) h
    · exact absurd (eq_of_successor_eq (j := .window) (by simp) h) hw
  obtain ⟨-, hmark⟩ := exec_frame hx hf hw
  rw [hmark]
  exact hs.frameReady ((State.isAt_iff hi).mpr (by simp [ha]))

omit hs hi in
theorem specReady_of_exec (ht : t.isAt [.peak]) : t.written.spec = true := by
  rw [State.isAt_iff (exec_phase hx), List.mem_singleton] at ht
  obtain rfl := eq_of_successor_eq (j := .xform) (by simp) ht
  obtain rfl : t = _ := exec_next_cases hx
  rfl

omit hs hi in
theorem kstarReady_of_exec (ht : t.isAt [.map]) : t.written.kstar = true := by
  rw [State.isAt_iff (exec_phase hx), List.mem_singleton] at ht
  obtain rfl := eq_of_successor_eq (j := .peak) (by simp) ht
  obtain ⟨-, rfl⟩ := exec_next_cases hx
  rfl

omit hs hi in
theorem bandReady_of_exec (ht : t.isAt [.emit]) : t.written.band = true := by
  rw [State.isAt_iff (exec_phase hx), List.mem_singleton] at ht
  obtain rfl := eq_of_successor_eq (j := .map) (by simp) ht
  obtain rfl : t = _ := exec_next_cases hx
  rfl

theorem kstarRange_of_exec (ht : t.written.kstar = true) : t.kstar < t.platform.n / 2 := by
  by_cases hp : i = .peak
  · subst hp
    have hc := hs.checked ((State.isAt_iff hi).not.mpr (by simp))
    obtain ⟨-, hn⟩ := configError_none_bounds hc
    have hne : s.bins ≠ [] := List.ne_nil_of_length_pos (by rw [State.bins_length]; omega)
    obtain ⟨-, rfl⟩ := exec_next_cases hx
    simpa using peakBin_lt s.arith hne
  · obtain ⟨hk, hmark⟩ := exec_kstar hx hp
    rw [hk, exec_platform hx]
    exact hs.kstarRange (hmark ▸ ht)

omit hi in
theorem sized_of_exec : Sized t := by
  obtain ⟨hwin, hframe, hre, him⟩ := hs.sized
  refine ⟨?_, ?_, ?_, ?_⟩ <;> rw [exec_platform hx]
  · by_cases h : i = .winit
    · subst h; obtain rfl : t = _ := exec_next_cases hx; simp
    · rw [(exec_win hx h).1, hwin]
  · by_cases h : i = .fetch
    · subst h; obtain ⟨-, rfl⟩ := exec_next_cases hx; simp
    by_cases h' : i = .window
    · subst h'; obtain rfl : t = _ := exec_next_cases hx; simp
    · rw [(exec_frame hx h h').1, hframe]
  · by_cases h : i = .xform
    · subst h; obtain rfl : t = _ := exec_next_cases hx; simp
    · rw [(exec_spec hx h).1, hre]
  · by_cases h : i = .xform
    · subst h; obtain rfl : t = _ := exec_next_cases hx; simp
    · rw [(exec_spec hx h).2, him]

/-- Every operation keeps the invariant. -/
theorem runInv_of_exec : RunInv t where
  legalPhase   := by rw [exec_phase hx, phaseCodeWf_encode]
  faultIffHalt := faultIffHalt_of_exec hs hi hx
  causeRight   := causeRight_of_exec hs hx
  haltOnError  := haltOnError_of_exec hs hi hx
  checked      := checked_of_exec hs hi hx
  indLegal     := indLegal_of_exec hs hx
  indDark ht   := (ind_cursor_of_exec_startup hs hi hx ht).1
  cursorRange  := cursorRange_of_exec hs hi hx
  cursorZero ht := (ind_cursor_of_exec_startup hs hi hx ht).2
  untouched    := untouched_of_exec hs hi hx
  winReady     := winReady_of_exec hs hi hx
  twReady      := twReady_of_exec hs hi hx
  frameReady   := frameReady_of_exec hs hi hx
  specReady    := specReady_of_exec hx
  kstarReady   := kstarReady_of_exec hx
  bandReady    := bandReady_of_exec hx
  kstarRange   := kstarRange_of_exec hs hi hx
  sized        := sized_of_exec hs hx
  srcWf        := exec_platform hx ▸ hs.srcWf
  hostWf       := exec_host hx ▸ hs.hostWf

end Operation

end Sys2Proof.Machine
end

section
/-! The state of the block (10_state.md). -/

namespace Sys2Proof.Machine

open Sys2Proof.Block

/-- Settles O48: a step is a reset, after which the invariant holds, or an operation, which keeps it. -/
theorem stepKeepsTheInvariant : Obligations.StepKeepsTheInvariant := by
  intro s t hs h
  rcases step_next_cases h with ⟨p, r, hh, rfl⟩ | ⟨i, r, hd, hh, hx⟩
  · exact runInv_afterReset (hs.hostWf p (by simp [hh])) fun q hq => hs.hostWf q (by simp [hh, hq])
  · have hr : r ⊆ s.host := by rcases hh with ⟨hh, rfl⟩ | hh <;> simp [hh]
    exact runInv_of_exec (hs.of_host_subset hr) (decode_eq_ok_iff.mp hd) hx

/-- Settles O32: the two spectra give `PEAK` the same bins. -/
theorem peakIgnoresTheUpperHalf : Obligations.PeakIgnoresTheUpperHalf := by
  intro s re im h
  have hb : State.bins { s with specRe := re, specIm := im } = s.bins := State.bins_congr rfl h
  constructor
  · intro t ht
    obtain ⟨hf, rfl⟩ := exec_next_cases ht
    have hu := exec_peak (s := { s with specRe := re, specIm := im }) (by rw [hb]; exact hf)
    rw [hu, hb]
    rfl
  · intro ht
    refine exec_peak_refused ?_
    rw [hb]
    by_contra hf
    have hpeak := exec_peak (s := s) (eq_true_of_ne_false hf)
    rw [hpeak] at ht
    cases ht

/-- Settles O42: for each storage, from what the other operations leave as it was. -/
theorem eachStorageHasItsWriters : Obligations.EachStorageHasItsWriters := by
  intro i s t h
  refine ⟨not_imp_comm.mp (exec_cursor h), not_imp_comm.mp (exec_band h), not_imp_comm.mp fun hi => (exec_kstar h hi).1,
    not_imp_comm.mp fun hi => (exec_status h hi).1, not_imp_comm.mp fun hi => (exec_status h hi).2,
    not_imp_comm.mp (exec_ind h), not_imp_comm.mp fun hi => (exec_win h hi).1, not_imp_comm.mp fun hi => ?_,
    not_imp_comm.mp fun hi => (exec_spec h hi).1, not_imp_comm.mp fun hi => (exec_spec h hi).2,
    not_imp_comm.mp fun hi => (exec_tw h hi).1, exec_keeps h⟩
  obtain ⟨hfetch, hwindow⟩ := not_or.mp hi
  exact (exec_frame h hfetch hwindow).1

/-- Settles O43: operations other than `EMIT` and `CFGCHK` leave all three outputs, and so does a check that passes. -/
theorem outputsChangeOnlyAtEmitOrTheCheck : Obligations.OutputsChangeOnlyAtEmitOrTheCheck := by
  intro s t hr h hne
  rcases step_next_cases h with ⟨p, r, hh, -⟩ | ⟨i, r, hd, -, hx⟩
  · exact absurd hh (hr p r)
  by_cases he : i = .emit
  · subst he
    obtain rfl : t = _ := exec_next_cases hx
    exact .inl ⟨hd, rfl, rfl, rfl⟩
  by_cases hc : i = .cfgchk
  · subst hc
    rcases exec_next_cases hx with ⟨e, herr, rfl⟩ | ⟨-, rfl⟩
    · exact .inr ⟨hd, by simp [herr], rfl, rfl, by simp [herr]⟩
    · exact absurd rfl hne
  · obtain ⟨hfault, hcause⟩ := exec_status hx hc
    have hout : (t.ind, t.fault, t.cause) = (s.ind, s.fault, s.cause) := by rw [exec_ind hx he, hfault, hcause]
    exact absurd hout hne

/-- A run of one step more begins with a step that answers. -/
theorem core_run_succ_cases {k : Nat} {s t : State} (h : core.run (k + 1) s = .next t) :
    ∃ u, step s = .next u ∧ core.run k u = .next t := by
  have hstep : core.step s = step s := rfl
  simp only [Host.Core.run, hstep] at h
  split at h
  · next u hu => exact ⟨u, hu, h⟩
  · cases h
  · cases h

/-- Over resets the parameters of a run are the first state's or those a pending reset presents (R121). -/
theorem core_run_platform (k : Nat) {s t : State} (h : core.run k s = .next t) :
    t.platform = s.platform ∨ .reset t.platform ∈ s.host := by
  induction k generalizing s with
  | zero => cases h; exact .inl rfl
  | succ k ih =>
    obtain ⟨u, hu, hrun⟩ := core_run_succ_cases h
    obtain ⟨hp, hh⟩ := step_platform (step_eq_step s ▸ hu)
    rcases ih hrun with heq | hmem
    · rwa [heq]
    · exact .inr (hh hmem)

/-- Settles O45: by induction on the steps; the case without a reset is the one in which none can present other parameters. -/
theorem parametersAreConstantAlongARun : Obligations.ParametersAreConstantAlongARun :=
  ⟨fun k _ _ hr h => (core_run_platform k h).resolve_right (hr _), fun k _ _ h => core_run_platform k h⟩

/-- Settles O47. -/
theorem everyResetMeetsTheInvariant : Obligations.EveryResetMeetsTheInvariant :=
  fun _ _ hp hh => runInv_afterReset hp hh

/-- Settles O49: at each operation that reads a storage, by the clause of the invariant for that storage. -/
theorem noRunReadsAnUnwrittenStorage : Obligations.NoRunReadsAnUnwrittenStorage := by
  intro s i hs hd
  have hat : ∀ {is : List Instr}, s.isAt is ↔ i ∈ is := State.isAt_iff (decode_eq_ok_iff.mp hd)
  cases i
  case window => exact Bool.and_eq_true_iff.mpr ⟨hs.frameReady (hat.mpr (by simp)), (hs.winReady (hat.not.mpr (by simp))).1⟩
  case xform => exact Bool.and_eq_true_iff.mpr ⟨hs.frameReady (hat.mpr (by simp)), (hs.twReady (hat.not.mpr (by simp))).1⟩
  case peak => exact hs.specReady (hat.mpr (by simp))
  case map => exact hs.kstarReady (hat.mpr (by simp))
  case emit => exact hs.bandReady (hat.mpr (by simp))
  all_goals rfl

/-- Settles O3. -/
theorem stepPerformsTheDecodedOperation : Obligations.StepPerformsTheDecodedOperation :=
  ⟨fun _ _ hd => ⟨fun hh => step_of_idle hh hd, fun _ hh => stepWith_of_run hh hd⟩, exec_eq_perform, step_eq_step⟩

/-- Settles O9. -/
theorem resetValuesAreTheTable : Obligations.ResetValuesAreTheTable :=
  ⟨rfl, rfl, rfl, rfl, rfl, rfl, rfl, rfl, rfl, rfl, rfl⟩

/-- Settles O46: the reference platform lists no sample, and no host action is pending. -/
theorem resetStateMeetsTheInvariant : Obligations.ResetStateMeetsTheInvariant :=
  runInv_afterReset reset_src_wf (by simp)

end Sys2Proof.Machine
end

section
/-! SUPPORT. What the sample table lists and how it reads beyond its samples (R37), and the frame that `FETCH` copies (R40, R95). -/

namespace Sys2Proof.Machine

variable {V : Type}

namespace Memory

variable [Inhabited V] [DecidableEq V]

/-- A table put in place from address `a` on lists no address at or beyond the end of its samples. -/
theorem lt_of_mem_ofSamples {xs : List V} {a b : Nat} {v : V} (h : (b, v) ∈ ofSamples a xs) : b < a + xs.length := by
  induction xs generalizing a with
  | nil => simp [ofSamples] at h
  | cons x xs ih =>
    have htail : (b, v) ∈ ofSamples (a + 1) xs → b < a + (x :: xs).length := fun hm => by
      have := ih hm
      rw [List.length_cons]; omega
    unfold ofSamples at h
    split at h
    · exact htail h
    · rcases List.mem_cons.mp h with he | hm
      · cases he; simp
      · exact htail hm

theorem read_ofSamples_of_le {xs : List V} {a b : Nat} (h : a + xs.length ≤ b) : read (ofSamples a xs) b = unlisted :=
  read_of_not_mem fun _ hm => h.not_gt (lt_of_mem_ofSamples hm)

/-- A table put in place from element address 0 on reads, at each address it has, as the sample there (R37). -/
theorem read_ofSamples_zero {xs : List V} {i : Nat} (h : i < xs.length) : read (ofSamples 0 xs) i = xs[i] := by
  simpa using read_ofSamples 0 xs h

end Memory

/-- `FETCH` misses an element exactly when the source has none and the frame wants one (R37; log 11). -/
theorem frameMissing_iff {p : Platform V} : frameMissing p = true ↔ p.l = 0 ∧ p.n ≠ 0 := by
  simp [frameMissing]

/-- Element `i` of the frame copied from cursor `c` is the sample at `(c + i) mod L` (R40, R95). -/
theorem getElem?_map_read_frameAddrs [Inhabited V] {p : Platform V} (hl : 0 < p.l) (c : Nat) {i : Nat} (hi : i < p.n) :
    ((frameAddrs p c).map p.src.read)[i]? = some (p.src.read ((c + i) % p.l)) := by
  simp [frameAddrs, hi, ea_of_pos hl]

theorem exec_fetch_missing {s : State} (h : frameMissing s.platform = true) : exec .fetch s = .fault .noSuchElement :=
  if_pos h

end Sys2Proof.Machine
end

section
/-! The Sample Source and the frame copied from it (20_memory.md). -/

namespace Sys2Proof.Machine

/-- Settles O15: the fetched frame reads the source at each address; on a table put in place from its samples, every address
formed is below `L` and so reads as its sample. -/
theorem fetchCopiesTheCircularSlice : Obligations.FetchCopiesTheCircularSlice := by
  intro s hl
  refine ⟨(frameAddrs s.platform s.cursor).map s.platform.src.read, by simp,
    fun _ hi => getElem?_map_read_frameAddrs hl s.cursor hi, fun xs hlen hsrc i hi => ?_, exec_fetch (frameMissing_eq_false hl)⟩
  have hk : (s.cursor + i) % s.platform.l < xs.length := hlen.symm ▸ Nat.mod_lt _ hl
  rw [getElem?_map_read_frameAddrs hl s.cursor hi, hsrc, List.getElem?_eq_getElem hk, Memory.read_ofSamples_zero hk]

/-- Settles O59, by the laws of the sample table; an address beyond its samples is one that no entry lists. -/
theorem sampleTableReadsAsItsSamples : Obligations.SampleTableReadsAsItsSamples := by
  refine ⟨fun xs a => ⟨fun h => ?_, fun h => ?_, Memory.ofSamples_wf 0 xs⟩, fun _ _ _ hm hv => Memory.read_of_mem hm hv,
    fun _ _ hv => Memory.read_of_not_mem hv, fun _ _ hm hk h => Memory.ext_of_wfFrom hm hk h⟩
  · exact Memory.read_ofSamples_zero h
  · exact Memory.read_ofSamples_of_le (by simpa using h)

/-- Settles O16: with `L = 0` an element is missing exactly when the frame has one. -/
theorem fetchFromAnEmptySourceFaults : Obligations.FetchFromAnEmptySourceFaults := by
  intro s hl
  constructor
  · intro hn
    exact exec_fetch_missing (frameMissing_iff.mpr ⟨hl, hn⟩)
  · intro hn
    have hm : frameMissing s.platform = false := Bool.eq_false_iff.mpr fun h => (frameMissing_iff.mp h).2 hn
    have haddrs : frameAddrs s.platform s.cursor = [] := List.eq_nil_of_length_eq_zero (by simpa using hn)
    rw [exec_fetch hm, haddrs]
    rfl

end Sys2Proof.Machine
end

section
/-! SUPPORT. The decoders of raw phase, Band and cause values, exactly (R52, R54, R56, R62), the host's check word, and the step
at a reserved code. -/

namespace Sys2Proof

/-- The reserved codes are exactly the ones that name no operation (R52). -/
theorem decode_eq_error_iff {c : PhaseCode} :
    decode c = .error (.reservedCode c) ↔ c ∈ [0xB#4, 0xC#4, 0xD#4, 0xE#4] := by
  revert c
  decide

theorem toOption_decode_eq_some_iff {c : PhaseCode} {i : Instr} : (decode c).toOption = some i ↔ c = encode i := by
  rw [← decode_eq_ok_iff]
  cases decode c <;> simp [Except.toOption]

/-- A check word names an operation exactly when its value is the operation's code, with no bit above the code. -/
theorem decodeTableWord_eq_some_iff {nbits w : Nat} {i : Instr} :
    decodeTableWord nbits w = some i ↔ w % 2 ^ nbits = (encode i).toNat := by
  by_cases hv : w % 2 ^ nbits < 16
  · simp only [decodeTableWord, if_pos hv, toOption_decode_eq_some_iff, BitVec.toNat_eq, BitVec.toNat_ofNat,
      Nat.mod_eq_of_lt hv]
  · have hlt : (encode i).toNat < 16 := (encode i).isLt
    simp only [decodeTableWord, if_neg hv, reduceCtorEq, false_iff]
    omega

end Sys2Proof

namespace Sys2Proof.Machine

/-- A decoder that reads back every code, and that answers a name only at its code, answers each name exactly at its code. -/
theorem eq_some_iff_of_code {α β : Type} {dec : α → Option β} {code : β → α} (hcode : ∀ b, dec (code b) = some b)
    (honly : ∀ c, ∀ b ∈ dec c, c = code b) (c : α) (b : β) : dec c = some b ↔ c = code b :=
  ⟨honly c b, fun h => h ▸ hcode b⟩

theorem bandOfCode_eq_some_iff (c : BitVec 2) (b : Band) : bandOfCode c = some b ↔ c = bandCode b :=
  eq_some_iff_of_code bandOfCode_bandCode (by decide) c b

theorem bandOfCode_eq_none_iff : ∀ c : BitVec 2, bandOfCode c = none ↔ c = 0b11#2 := by
  decide

@[simp] theorem causeOfCode_causeCode (e : Option ConfigError) : causeOfCode (causeCode e) = some e := by
  rcases e with _ | _ | _ | _ | _ <;> rfl

theorem causeOfCode_eq_some_iff (c : BitVec 3) (e : Option ConfigError) : causeOfCode c = some e ↔ c = causeCode e :=
  eq_some_iff_of_code causeOfCode_causeCode (by decide) c e

theorem causeOfCode_eq_none_iff : ∀ c : BitVec 3, causeOfCode c = none ↔ 5 ≤ c.toNat := by
  decide

end Sys2Proof.Machine

namespace Sys2Proof.Block

open Sys2Proof.Machine

variable {V : Type} {exec : Instr → State V → Host.Outcome (State V) Fault Refusal} {s : State V}

/-- A reserved code performs no operation (R52). -/
theorem runPhase_of_reserved (h : s.phase ∈ [0xB#4, 0xC#4, 0xD#4, 0xE#4]) : runPhase exec s = .fault .reservedPhase := by
  simp only [runPhase, decode_eq_error_iff.mpr h]

end Sys2Proof.Block
end

section
/-! The codes and the step that decodes them (30_encoding.md). -/

namespace Sys2Proof.Machine

open Sys2Proof.Block

/-- Settles O1: each row of R51's table is the code of its operation. -/
theorem twelveCodesNameTheOperations : Obligations.TwelveCodesNameTheOperations :=
  ⟨decode_encode .cfgchk, decode_encode .winit, decode_encode .xinit, decode_encode .fetch, decode_encode .adv,
    decode_encode .window, decode_encode .xform, decode_encode .peak, decode_encode .map, decode_encode .emit,
    decode_encode .pace, decode_encode .halt, decodeTableWord_eq_some_iff.mpr rfl, rfl⟩

/-- Settles O2. -/
theorem rawCodesDecodeToOneNameOrInvalid : Obligations.RawCodesDecodeToOneNameOrInvalid :=
  ⟨fun _ _ => decode_eq_ok_iff, fun _ => decode_eq_error_iff, bandOfCode_eq_some_iff, bandOfCode_eq_none_iff,
    causeOfCode_eq_some_iff, causeOfCode_eq_none_iff⟩

/-- Settles O4: the word's value is the operation's code, and the step takes the pending "nothing" off the list again. -/
theorem fetchWordIsPerformedNext : Obligations.FetchWordIsPerformedNext := by
  intro s nbits w i h
  have hphase : (s.withFetchWord nbits w).phase = encode i := by
    show BitVec.ofNat 4 (w % 2 ^ nbits) = encode i
    rw [decodeTableWord_eq_some_iff.mp h, BitVec.ofNat_toNat, BitVec.setWidth_eq]
  calc step (s.withFetchWord nbits w)
      = exec i { s.withFetchWord nbits w with host := s.host } := stepWith_of_run rfl (decode_eq_ok_iff.mpr hphase)
    _ = exec i { s with phase := (s.withFetchWord nbits w).phase } := rfl
    _ = exec i { s with phase := encode i } := by rw [hphase]

/-- Settles O5: with nothing pending, or a pending "nothing", the step is the one `PHASE` names, and it names none. -/
theorem reservedPhaseHasNoStep : Obligations.ReservedPhaseHasNoStep := by
  intro s hres
  constructor
  · intro hh
    simp only [step, stepWith, hh, runPhase_of_reserved hres]
  · intro r hh
    have hu : runPhase exec { s with host := r } = .fault .reservedPhase := runPhase_of_reserved hres
    simp only [step, stepWith, hh, hu]

end Sys2Proof.Machine
end

section
/-! SUPPORT. The elements of the two buffers the Windowing Stage writes (R65, R66); the window over the real numbers, through its
angle (R64); and the one rounding from the fixed-point coefficient to the formula (log 6). -/

namespace Sys2Proof.Machine

/-! ## The elements the Windowing Stage writes -/

section Buffers

variable {V : Type} (A : Arith V)

theorem getElem?_windowTable {n i : Nat} (h : i < n) : (windowTable A n)[i]? = some (A.wcoef n i) := by
  rw [List.getElem?_eq_getElem (by simpa using h), windowTable_getElem]

theorem getElem?_windowed {x w : List V} {i : Nat} (hx : i < x.length) (hw : i < w.length) :
    (windowed A x w)[i]? = some (A.mul x[i] w[i]) := by
  rw [List.getElem?_eq_getElem (by simpa using ⟨hx, hw⟩), windowed_getElem A x w _ hx hw]

/-- A lane that both buffers have is the product of its sample and its coefficient, the sample first (R68). -/
theorem getElem?_windowed_elems [Inhabited V] {n i : Nat} {x w : List V} (hx : i < x.length) (hw : i < w.length)
    (hi : i < n) : (windowed A (elems n x) (elems n w))[i]? = some (A.mul x[i] w[i]) := by
  rw [getElem?_windowed A (by simpa using hi) (by simpa using hi)]
  simp [elems_eq_map, elem_of_lt hx, elem_of_lt hw]

end Buffers

/-! ## The window over the real numbers -/

open Reference

/-- The angle whose cosine the window formula takes, `2π·i/(N-1)` (R64). -/
noncomputable def windowAngle (n i : ℕ) : ℝ := 2 * Real.pi * i / (n - 1)

section Window

variable {n : ℕ} (hn : 2 ≤ n)
include hn

theorem w_eq_cos_windowAngle (i : ℕ) : w n i = 0.54 - 0.46 * Real.cos (windowAngle n i) := w_of_two_le hn i

/-- The divisor of the window formula is not zero. -/
theorem window_divisor_pos : (0 : ℝ) < n - 1 := by
  have : (2 : ℝ) ≤ n := by exact_mod_cast hn
  linarith

theorem windowAngle_nonneg (i : ℕ) : 0 ≤ windowAngle n i := by
  have := window_divisor_pos hn
  have := Real.pi_pos
  unfold windowAngle
  positivity

theorem windowAngle_strictMono : StrictMono (windowAngle n) := by
  intro i j hij
  have := window_divisor_pos hn
  have := Real.pi_pos
  unfold windowAngle
  gcongr

/-- Half a turn is reached exactly in the middle of the window. -/
theorem windowAngle_eq_pi_iff {i : ℕ} : windowAngle n i = Real.pi ↔ 2 * i = n - 1 := by
  have hpi := Real.pi_pos
  rw [windowAngle, div_eq_iff (window_divisor_pos hn).ne', mul_right_comm, mul_comm, mul_right_inj' hpi.ne',
    ← Nat.cast_pred (by omega)]
  exact_mod_cast Iff.rfl

/-- On the first half of the window the angle is at most half a turn. -/
theorem windowAngle_le_pi {i : ℕ} (h : 2 * i ≤ n - 1) : windowAngle n i ≤ Real.pi := by
  have hi : (2 * i : ℝ) ≤ n - 1 := by
    rw [← Nat.cast_pred (by omega)]
    exact_mod_cast h
  have hpi := Real.pi_pos
  rw [windowAngle, div_le_iff₀ (window_divisor_pos hn)]
  nlinarith

/-- Mirrored indices have angles that add up to a whole turn. -/
theorem windowAngle_mirror {i : ℕ} (hi : i < n) : windowAngle n (n - 1 - i) = 2 * Real.pi - windowAngle n i := by
  have := window_divisor_pos hn
  rw [windowAngle, windowAngle, Nat.cast_sub (by omega), Nat.cast_pred (by omega)]
  field_simp

/-- The window is symmetric (R67). -/
theorem w_mirror {i : ℕ} (hi : i < n) : w n (n - 1 - i) = w n i := by
  rw [w_eq_cos_windowAngle hn, w_eq_cos_windowAngle hn, windowAngle_mirror hn hi, Real.cos_two_pi_sub]

theorem w_zero : w n 0 = 0.08 := by
  rw [w_eq_cos_windowAngle hn, windowAngle, Nat.cast_zero, mul_zero, zero_div, Real.cos_zero]
  norm_num

theorem w_last : w n (n - 1) = 0.08 := (w_mirror hn (i := 0) (by omega)).trans (w_zero hn)

theorem le_w (i : ℕ) : 0.08 ≤ w n i := by
  rw [w_eq_cos_windowAngle hn]
  linarith [Real.cos_le_one (windowAngle n i)]

theorem w_pos (i : ℕ) : 0 < w n i := lt_of_lt_of_le (by norm_num) (le_w hn i)

theorem w_le_one (i : ℕ) : w n i ≤ 1 := by
  rw [w_eq_cos_windowAngle hn]
  linarith [Real.neg_one_le_cos (windowAngle n i)]

/-- The window strictly increases up to its middle, where the cosine strictly decreases (R67). -/
theorem w_lt_w {i j : ℕ} (hij : i < j) (hj : 2 * j ≤ n - 1) : w n i < w n j := by
  have := Real.cos_lt_cos_of_nonneg_of_le_pi (windowAngle_nonneg hn i) (windowAngle_le_pi hn hj)
    (windowAngle_strictMono hn hij)
  rw [w_eq_cos_windowAngle hn, w_eq_cos_windowAngle hn]
  linarith

/-- From its middle on it strictly decreases: the mirror image of the first half. -/
theorem w_lt_w_of_middle_le {i j : ℕ} (hi : n - 1 ≤ 2 * i) (hij : i < j) (hj : j < n) : w n j < w n i := by
  rw [← w_mirror hn hj, ← w_mirror hn (hij.trans hj)]
  exact w_lt_w hn (by omega) (by omega)

/-- No index of the first half but the middle one reaches the value 1. -/
theorem w_eq_one_iff_of_le {i : ℕ} (h : 2 * i ≤ n - 1) : w n i = 1 ↔ 2 * i = n - 1 := by
  rw [← windowAngle_eq_pi_iff hn, w_eq_cos_windowAngle hn]
  constructor
  · intro h1
    have hcos : Real.cos (windowAngle n i) = Real.cos Real.pi := by rw [Real.cos_pi]; linarith
    exact Real.injOn_cos ⟨windowAngle_nonneg hn i, windowAngle_le_pi hn h⟩ ⟨Real.pi_pos.le, le_rfl⟩ hcos
  · intro h1
    rw [h1, Real.cos_pi]
    norm_num

/-- The value 1 is reached exactly in the middle of the window (R67). -/
theorem w_eq_one_iff {i : ℕ} (hi : i < n) : w n i = 1 ↔ 2 * i = n - 1 := by
  rcases Nat.le_total (2 * i) (n - 1) with h | h
  · exact w_eq_one_iff_of_le hn h
  · rw [← w_mirror hn hi, w_eq_one_iff_of_le hn (by omega)]
    omega

end Window

/-! ### An even frame size -/

section Even

variable {h : ℕ} (hh : 1 ≤ h)
include hh

/-- The two middle coefficients of an even window are equal. -/
theorem w_middle : w (2 * h) h = w (2 * h) (h - 1) := by
  rw [← w_mirror (by omega) (by omega : h < 2 * h), show 2 * h - 1 - h = h - 1 by omega]

theorem w_middle_eq : w (2 * h) (h - 1) = 0.54 + 0.46 * Real.cos (Real.pi / ((2 * h : ℕ) - 1)) := by
  have hd := window_divisor_pos (n := 2 * h) (by omega)
  have hangle : windowAngle (2 * h) (h - 1) = Real.pi - Real.pi / ((2 * h : ℕ) - 1) := by
    rw [windowAngle, Nat.cast_pred (by omega)]
    field_simp
    push_cast
    ring
  rw [w_eq_cos_windowAngle (by omega), hangle, Real.cos_pi_sub]
  ring

/-- The two middle coefficients are the maximum of an even window: each half is monotone towards them. -/
theorem w_le_middle {i : ℕ} (hi : i < 2 * h) : w (2 * h) i ≤ w (2 * h) h := by
  rcases Nat.lt_trichotomy i h with hlt | rfl | hgt
  · rw [w_middle hh]
    rcases (Nat.le_sub_one_of_lt hlt).lt_or_eq with hlt' | rfl
    · exact (w_lt_w (by omega) hlt' (by omega)).le
    · exact le_rfl
  · exact le_rfl
  · exact (w_lt_w_of_middle_le (by omega) (by omega) hgt hi).le

/-- No coefficient of an even window is 1, since `N - 1` is odd. -/
theorem w_ne_one_of_even {i : ℕ} (hi : i < 2 * h) : w (2 * h) i ≠ 1 := by
  rw [Ne, w_eq_one_iff (by omega) hi]
  omega

end Even

/-! ### A product by a number in `(0, 1]` -/

/-- A lane of the real window is the sample times a coefficient in `(0, 1]` (R66). -/
theorem getElem?_windowed_real {x : List ℝ} {i : ℕ} (h : i < x.length) :
    (windowed real x (windowTable real x.length))[i]? = some (x[i] * w x.length i) := by
  rw [getElem?_windowed real h (by simpa using h), windowTable_getElem]
  rfl

theorem abs_mul_w_le {n : ℕ} (hn : 2 ≤ n) (i : ℕ) (v : ℝ) : |v * w n i| ≤ |v| := by
  rw [abs_mul, abs_of_pos (w_pos hn i)]
  exact mul_le_of_le_one_right (abs_nonneg v) (w_le_one hn i)

end Sys2Proof.Machine

/-! ## The binary32 coefficient -/

namespace Sys2Proof.Machine.Binary32

/-- The fixed-point coefficient for the cosine of sign `neg` and magnitude `c`: `0.54 - 0.46·cos`, rounded down. -/
def coefFix (neg : Bool) (c : ℕ) : ℕ := (if neg then 54 * one + 46 * c else 54 * one - 46 * c) / 100

theorem wcoef_eq_ofFix {n : ℕ} (hn : 2 ≤ n) (i : ℕ) :
    wcoef n i = ofFix false (coefFix (cosTurn i (n - 1)).1 (cosTurn i (n - 1)).2) := by
  rw [wcoef, if_neg (by omega)]
  rcases cosTurn i (n - 1) with ⟨_ | _, c⟩ <;> rfl

theorem coefFix_le (neg : Bool) {c : ℕ} (hc : c ≤ one) : coefFix neg c ≤ one := by
  unfold coefFix
  split <;> omega

/-- The division by 100 loses less than one unit of the fixed point. -/
theorem coefFix_close (neg : Bool) {c : ℕ} (hc : c ≤ one) :
    |(coefFix neg c : ℝ) / one - (0.54 - 0.46 * ((if neg then -(c : ℝ) else c) / one))| ≤ 1 / one := by
  have ho := one_pos
  obtain ⟨hle, hlt⟩ := natDiv_close (if neg then 54 * one + 46 * c else 54 * one - 46 * c) 100 (by decide)
  have hnum : ((if neg then 54 * one + 46 * c else 54 * one - 46 * c : ℕ) : ℝ) =
      54 * one - 46 * (if neg then -(c : ℝ) else c) := by
    cases neg
    · simp [Nat.cast_sub (show 46 * c ≤ 54 * one by omega)]
    · simp
  rw [hnum] at hle hlt
  change (coefFix neg c : ℝ) ≤ _ at hle
  change _ < (coefFix neg c : ℝ) + 1 at hlt
  generalize (if neg then -(c : ℝ) else c) = r at *
  have hdiff : (coefFix neg c : ℝ) / one - (0.54 - 0.46 * (r / one)) =
      (coefFix neg c - (54 * one - 46 * r) / 100) / one := by
    field_simp
    ring
  rw [hdiff, abs_div, abs_of_pos ho]
  gcongr
  push_cast at hle hlt
  rw [abs_le]
  constructor <;> linarith

/-- The binary32 coefficient is the formula's up to the fixed-point cosine, the division by 100 and the one rounding. -/
theorem wcoef_close {n i : ℕ} (hn : 2 ≤ n) (hi : i < n) :
    |(Reference.valueOf (wcoef n i) : ℝ) - Reference.w n i| ≤ 2 ^ (-20 : ℤ) := by
  have hc := cosTurn_le i (n - 1)
  have hround := valueOf_ofFix (coefFix_le (cosTurn i (n - 1)).1 hc)
  have hfix := coefFix_close (cosTurn i (n - 1)).1 hc
  have hcos := cosTurn_close (i := i) (den := n - 1) (by omega) (by omega)
  rw [Nat.cast_pred (by omega)] at hcos
  have hone : 1 / (one : ℝ) ≤ 1e-20 := by norm_num [one, fracBits]
  rw [wcoef_eq_ofFix hn, w_of_two_le hn]
  rw [abs_le] at hround hfix hcos ⊢
  norm_num at hround hfix hcos hone ⊢
  constructor <;> linarith

end Sys2Proof.Machine.Binary32
end

section
/-! The Windowing Stage (40_windowing.md). -/

namespace Sys2Proof.Machine

open Reference

/-- Settles O20. -/
theorem windowMultipliesLaneByLane : Obligations.WindowMultipliesLaneByLane := by
  intro s
  refine ⟨windowed s.arith (elems s.platform.n s.frame) (elems s.platform.n s.win), by simp, ?_, exec_window s⟩
  intro i hf hw hi
  exact getElem?_windowed_elems s.arith hf hw hi

/-- Settles O21: the sample is the first operand of `MUL_ZERO`'s product. -/
theorem zeroSamplesStayZero : Obligations.ZeroSamplesStayZero := by
  intro s hmul hsized
  refine ⟨_, exec_window s, fun i hf hw hzero hfin => ?_⟩
  have hi : i < s.platform.n := hsized.frame ▸ hf
  exact ⟨_, getElem?_windowed_elems s.arith hf hw hi, (hmul _ _ hzero hfin).1⟩

/-- Settles O22: a windowed sample is the sample times a coefficient in `[0.08, 1]`. -/
theorem windowEndsSymmetryAndRange : Obligations.WindowEndsSymmetryAndRange := by
  refine ⟨fun _ hn => ⟨w_zero hn, w_last hn⟩, fun _ _ hn hi => (w_mirror hn hi).symm,
    fun _ i hn _ => ⟨le_w hn i, w_le_one hn i⟩, fun x i h hn => ?_⟩
  have hw := w_pos hn i
  exact ⟨_, getElem?_windowed_real h, abs_mul_w_le hn i _, fun hpos => mul_pos hpos hw, fun hneg => mul_neg_of_neg_of_pos hneg hw⟩

/-- Settles O23: the cosine is injective and strictly decreasing up to half a turn, and the second half is the mirror image of the
first. -/
theorem windowCentreAndMonotoneHalves : Obligations.WindowCentreAndMonotoneHalves := by
  refine ⟨fun _ _ hn hi => w_eq_one_iff hn hi, fun h hh => ⟨w_middle_eq hh, w_middle hh,
    fun _ hi => ⟨w_le_middle hh hi, w_ne_one_of_even hh hi⟩, fun i j hij hj => ?_, fun i j hi hij hj => ?_⟩⟩
  · exact w_lt_w (by omega) hij (by omega)
  · exact w_lt_w_of_middle_le (by omega) (by omega) hij hj

/-- Settles O58. -/
theorem binaryThirtyTwoWindowIsClose : Obligations.BinaryThirtyTwoWindowIsClose :=
  fun _ _ hn hi => Binary32.wcoef_close hn hi

/-- Settles O12. -/
theorem winitFillsTheWindow : Obligations.WinitFillsTheWindow := by
  intro s
  refine ⟨windowTable s.arith s.platform.n, by simp, ?_, exec_winit s⟩
  intro i hi
  exact getElem?_windowTable s.arith hi

end Sys2Proof.Machine
end

section
/-! SUPPORT. The elements of the spectrum `XFORM` writes (R73); the discrete Fourier transform of a real frame through its angle
(R75, R77); and that the scan sees its magnitudes only through their order (R78, R79). -/

namespace Sys2Proof.Machine

/-! ## The elements XFORM writes -/

section Spectrum

variable {V : Type}

theorem getElem?_spectrumOf (X : Transform V) {n k : Nat} (tw x : List V) (h : k < n) :
    (spectrumOf X n tw x)[k]? = some (X.run tw x k) := by
  rw [List.getElem?_eq_getElem (by simpa using h), spectrumOf_getElem]

/-- On a frame of `N` elements the spectrum is the transform of the frame itself. -/
theorem getElem?_spectrumOf_elems [Inhabited V] (X : Transform V) {n k : Nat} (tw : List V) {x : List V}
    (hx : x.length = n) (h : k < n) : (spectrumOf X n tw (elems n x))[k]? = some (X.run tw x k) := by
  rw [elems_self hx, getElem?_spectrumOf X tw x h]

theorem take_spectrumOf (X : Transform V) {n b : Nat} (tw x : List V) (h : b ≤ n) :
    (spectrumOf X n tw x).take b = (List.range b).map (X.run tw x) := by
  rw [spectrumOf, ← List.map_take, List.take_range, Nat.min_eq_left h]

end Spectrum

/-! ## The scan sees magnitudes only through their order -/

section Order

variable {V : Type} {A : Arith V} {f : V → V} (hf : ∀ x y, A.gt (f x) (f y) = A.gt x y)
include hf

theorem scanPeak_map (xs : List V) (k b : Nat) (m : V) :
    scanPeak A.gt (xs.map f) k (b, f m) = scanPeak A.gt xs k (b, m) := by
  induction xs generalizing k b m with
  | nil => rfl
  | cons x xs ih =>
    simp only [List.map_cons, scanPeak, hf]
    split
    · exact ih (k + 1) k x
    · exact ih (k + 1) b m

theorem peakBin_eq_of_magnitudes_map {bins bins' : List (V × V)}
    (h : bins'.map (magnitude A) = (bins.map (magnitude A)).map f) : peakBin A bins' = peakBin A bins := by
  unfold peakBin
  rw [h]
  cases bins.map (magnitude A) with
  | nil => rfl
  | cons m ms => exact scanPeak_map hf ms 1 0 m

end Order

/-! ## The discrete Fourier transform of a real frame -/

open Reference

/-- The angle of element `i` in entry `k` of a transform of length `n`, `2π·k·i/N` (R75). -/
noncomputable def dftAngle (n k i : ℕ) : ℝ := 2 * Real.pi * k * i / n

/-- The sum of the frame's elements times the cosines of their angles. -/
noncomputable def cosSum (x : List ℝ) (k : ℕ) : ℝ :=
  ∑ i ∈ Finset.range x.length, x.getD i 0 * Real.cos (dftAngle x.length k i)

/-- The sum of the frame's elements times the sines of their angles. -/
noncomputable def sinSum (x : List ℝ) (k : ℕ) : ℝ :=
  ∑ i ∈ Finset.range x.length, x.getD i 0 * Real.sin (dftAngle x.length k i)

theorem isDft_iff {c s : ℝ} {x : List ℝ} {X : ℕ → ℝ × ℝ} :
    IsDft c s x X ↔ ∀ k < x.length, (X k).1 = c * cosSum x k ∧ (X k).2 = c * s * sinSum x k := Iff.rfl

theorem magnitude_real (b : ℝ × ℝ) : magnitude real b = √(b.1 * b.1 + b.2 * b.2) := rfl

/-- The scale comes out of the magnitude as a factor, and the sign disappears. -/
theorem magnitude_of_isDft {c s : ℝ} {x : List ℝ} {X : ℕ → ℝ × ℝ} (hc : 0 < c) (hs : s = 1 ∨ s = -1)
    (hX : IsDft c s x X) {k : ℕ} (hk : k < x.length) :
    magnitude real (X k) = c * √(cosSum x k ^ 2 + sinSum x k ^ 2) := by
  obtain ⟨hre, him⟩ := isDft_iff.mp hX k hk
  have hss : s ^ 2 = 1 := sq_eq_one_iff.mpr hs
  have hsq : (X k).1 * (X k).1 + (X k).2 * (X k).2 = c ^ 2 * (cosSum x k ^ 2 + sinSum x k ^ 2) := by
    rw [hre, him]
    linear_combination c ^ 2 * sinSum x k ^ 2 * hss
  rw [magnitude_real, hsq, Real.sqrt_mul (sq_nonneg c), Real.sqrt_sq hc.le]

theorem gt_real_mul_left {r : ℝ} (hr : 0 < r) (a b : ℝ) : real.gt (r * a) (r * b) = real.gt a b := by
  simp [real, mul_lt_mul_iff_right₀ hr]

/-- Two transforms of one frame have proportional magnitudes, so the scan answers the same bin (R75). -/
theorem peakBin_eq_of_isDft {c d s r : ℝ} {x : List ℝ} {X Y : ℕ → ℝ × ℝ} {b : ℕ} (hc : 0 < c) (hd : 0 < d)
    (hs : s = 1 ∨ s = -1) (hr : r = 1 ∨ r = -1) (hX : IsDft c s x X) (hY : IsDft d r x Y) (hb : b ≤ x.length) :
    peakBin real ((List.range b).map X) = peakBin real ((List.range b).map Y) := by
  refine peakBin_eq_of_magnitudes_map (gt_real_mul_left (div_pos hc hd)) ?_
  simp only [List.map_map]
  refine List.map_congr_left fun k hk => ?_
  have hk : k < x.length := (List.mem_range.mp hk).trans_le hb
  calc magnitude real (X k)
      = c * √(cosSum x k ^ 2 + sinSum x k ^ 2) := magnitude_of_isDft hc hs hX hk
    _ = c / d * (d * √(cosSum x k ^ 2 + sinSum x k ^ 2)) := by field_simp
    _ = c / d * magnitude real (Y k) := by rw [magnitude_of_isDft hd hr hY hk]

/-! ### Entry `N - k` -/

section Mirror

variable {n k : ℕ}

/-- The angles of entries `k` and `N - k` add up to a whole number of turns. -/
theorem dftAngle_mirror (hk : k < n) (i : ℕ) : dftAngle n (n - k) i = i * (2 * Real.pi) - dftAngle n k i := by
  have hn : (n : ℝ) ≠ 0 := by exact_mod_cast (by omega : n ≠ 0)
  rw [dftAngle, dftAngle, Nat.cast_sub hk.le]
  field_simp

variable {x : List ℝ}

theorem cosSum_mirror (hk : k < x.length) : cosSum x (x.length - k) = cosSum x k := by
  simp only [cosSum, dftAngle_mirror hk, Real.cos_nat_mul_two_pi_sub]

theorem sinSum_mirror (hk : k < x.length) : sinSum x (x.length - k) = -sinSum x k := by
  simp only [sinSum, dftAngle_mirror hk, Real.sin_nat_mul_two_pi_sub, mul_neg, Finset.sum_neg_distrib]

end Mirror

end Sys2Proof.Machine
end

section
/-! The transform (41_transform.md). -/

namespace Sys2Proof.Machine

open Reference

/-- Settles O24: on a frame of `N` elements nothing is read beyond its end. -/
theorem xformReplacesTheSpectrum : Obligations.XformReplacesTheSpectrum := by
  intro s
  refine ⟨(spectrumOf s.transform s.platform.n s.tw (elems s.platform.n s.frame)).map Prod.fst,
    (spectrumOf s.transform s.platform.n s.tw (elems s.platform.n s.frame)).map Prod.snd, by simp, by simp, ?_, exec_xform s⟩
  intro hframe k hk
  rw [List.getElem?_map, List.getElem?_map, getElem?_spectrumOf_elems s.transform s.tw hframe hk]
  exact ⟨rfl, rfl⟩

/-- Settles O25: the magnitudes of two transforms of one frame are proportional, and the scan only compares them. -/
theorem scaleAndSignLeaveThePeak : Obligations.ScaleAndSignLeaveThePeak := by
  constructor
  · intro X Y hX hY m x fs hm hx
    obtain ⟨c, s, hc, hs, hX⟩ := hX m hm
    obtain ⟨d, r, hd, hr, hY⟩ := hY m hm
    have hhalf : 2 ^ m / 2 ≤ 2 ^ m := Nat.div_le_self _ _
    rw [take_spectrumOf X _ _ hhalf, take_spectrumOf Y _ _ hhalf,
      peakBin_eq_of_isDft hc hd hs hr (hX x hx) (hY x hx) (hhalf.trans_eq hx.symm)]
  · intro c d s r x X Y b hc hd hs hr hX hY hb
    exact peakBin_eq_of_isDft hc hd hs hr hX hY hb

/-- Settles O26: the cosine is even and the sine odd, up to whole turns. -/
theorem realFrameHasAConjugateSpectrum : Obligations.RealFrameHasAConjugateSpectrum := by
  intro c s x X hX k h1 hk
  obtain ⟨hre, him⟩ := isDft_iff.mp hX k hk
  obtain ⟨hre', him'⟩ := isDft_iff.mp hX (x.length - k) (by omega)
  have hreEq : (X (x.length - k)).1 = (X k).1 := by rw [hre', hre, cosSum_mirror hk]
  have himEq : (X (x.length - k)).2 = -(X k).2 := by rw [him', him, sinSum_mirror hk, mul_neg]
  exact ⟨hreEq, himEq, by rw [magnitude_real, magnitude_real, hreEq, himEq, neg_mul_neg]⟩

/-- Settles O13. -/
theorem xinitAsksForTheTable : Obligations.XinitAsksForTheTable := exec_xinit

end Sys2Proof.Machine
end

section
/-! SUPPORT. The bins `PEAK` reads, one by one (R78, R91); the least index of a maximum, and what the scan answers on zeros and
over the real numbers (R78, R82, R83); the band mapper as real frequencies and as threshold bins (R85, R87); the roots, squares and
sums of the real numbers and of binary32 (R80). -/

namespace Sys2Proof

theorem Arith.finite_of_isZero {V : Type} {A : Arith V} {v : V} (h : A.isZero v = true) : A.finite v = true := by
  simp only [Arith.isZero, Bool.and_eq_true] at h
  obtain ⟨⟨hf, -⟩, -⟩ := h
  exact hf

end Sys2Proof

namespace Sys2Proof.Block

open Sys2Proof.Machine

variable {V : Type} [Inhabited V]

/-! ## The bins the classifier reads -/

theorem State.bins_eq_map (s : State V) :
    s.bins = (List.range (s.platform.n / 2)).map fun k => (elem s.specRe k, elem s.specIm k) := by
  refine List.ext_getElem (by simp) fun k hs _ => ?_
  rw [State.bins_getElem s hs, List.getElem_map, List.getElem_range]

theorem State.forall_mem_bins_iff (s : State V) {p : V × V → Prop} :
    (∀ b ∈ s.bins, p b) ↔ ∀ k, k < s.platform.n / 2 → p (elem s.specRe k, elem s.specIm k) := by
  simp [State.bins_eq_map]

theorem State.finiteSpectrum_bins_iff (A : Arith V) (s : State V) : finiteSpectrum A s.bins = true ↔
    ∀ k, k < s.platform.n / 2 → A.finite (elem s.specRe k) = true ∧ A.finite (elem s.specIm k) = true ∧
      A.finite (magnitude A (elem s.specRe k, elem s.specIm k)) = true := by
  rw [finiteSpectrum_iff, State.forall_mem_bins_iff]

theorem State.bins_ne_nil {s : State V} (h : 2 ≤ s.platform.n) : s.bins ≠ [] := by
  rw [← List.length_pos_iff, State.bins_length]
  omega

/-- Where the two buffers hold a spectrum the bins are its first half. -/
theorem State.bins_of_spectrum {s : State V} {spec : List (V × V)} (hre : s.specRe = spec.map Prod.fst)
    (him : s.specIm = spec.map Prod.snd) (hlen : spec.length = s.platform.n) : s.bins = spec.take (s.platform.n / 2) := by
  have hhalf : s.platform.n / 2 ≤ spec.length := (Nat.div_le_self _ _).trans_eq hlen.symm
  rw [State.bins, hre, him, elems_eq_take (by simpa using hhalf), elems_eq_take (by simpa using hhalf), ← List.map_take,
    ← List.map_take]
  exact (List.zip_of_prod rfl rfl).symm

end Sys2Proof.Block

namespace Sys2Proof.Machine

open Reference

/-! ## The least index of a maximum -/

section Best

variable {V : Type} {gt : V → V → Bool}

theorem Best.unique {l : List V} {b c : Nat} (hb : Best gt l b) (hc : Best gt l c) : b = c := by
  obtain ⟨hbl, hbmax, hblow⟩ := hb
  obtain ⟨hcl, hcmax, hclow⟩ := hc
  rcases lt_trichotomy b c with h | h | h
  · exact absurd (hclow b h) (by simp [hbmax _ (List.getElem_mem hcl)])
  · exact h
  · exact absurd (hblow c h) (by simp [hcmax _ (List.getElem_mem hbl)])

/-- It is the same for values a function maps without changing how they compare. -/
theorem best_map_iff {W : Type} {gt' : W → W → Bool} {f : V → W} {l : List V} {b : Nat}
    (h : ∀ x ∈ l, ∀ y ∈ l, gt' (f x) (f y) = gt x y) : Best gt' (l.map f) b ↔ Best gt l b := by
  have hget : ∀ {j} (hj : j < l.length), l[j] ∈ l := List.getElem_mem
  simp only [Best, List.length_map, List.getElem_map, List.forall_mem_map]
  refine exists_congr fun hb => and_congr (forall₂_congr fun y hy => ?_) (forall₂_congr fun j hj => ?_)
  · rw [h y hy _ (hget hb)]
  · rw [h _ (hget hb) _ (hget (hj.trans hb))]

/-- The least index of a maximum among the first `n` values of a function. -/
theorem best_map_range_iff {f : Nat → V} {n b : Nat} : Best gt ((List.range n).map f) b ↔
    b < n ∧ (∀ j, j < n → gt (f j) (f b) = false) ∧ ∀ j, j < b → gt (f b) (f j) = true := by
  simp [Best, and_left_comm]

end Best

/-! ## The scan on one bin, and on zeros -/

section Zeros

variable {V : Type} {A : Arith V}

theorem peakBin_of_length_le_one {bins : List (V × V)} (h : bins.length ≤ 1) : peakBin A bins = 0 := by
  match bins, h with
  | [], _ => rfl
  | [_], _ => rfl

/-- A best that nothing exceeds stays the best. -/
theorem scanPeak_of_not_gt {gt : V → V → Bool} {xs : List V} {m : V} (h : ∀ x ∈ xs, gt x m = false) (k b : Nat) :
    scanPeak gt xs k (b, m) = b := by
  induction xs generalizing k with
  | nil => rfl
  | cons x xs ih =>
    obtain ⟨hx, hxs⟩ := List.forall_mem_cons.mp h
    rw [scanPeak, hx]
    exact ih hxs (k + 1)

/-- Both components are zeros of the carrier. -/
def IsZeroBin (A : Arith V) (b : V × V) : Prop := A.isZero b.1 = true ∧ A.isZero b.2 = true

theorem isZero_magnitude (hA : A.ZeroLaws) {b : V × V} (h : IsZeroBin A b) : A.isZero (magnitude A b) = true := by
  obtain ⟨-, hmul, hadd, hsqrt⟩ := hA
  obtain ⟨hre, him⟩ := h
  exact hsqrt _ (hadd _ _ (hmul _ _ hre (Arith.finite_of_isZero hre)).1 (hmul _ _ him (Arith.finite_of_isZero him)).1)

theorem finiteSpectrum_of_zeros (hA : A.ZeroLaws) {bins : List (V × V)} (h : ∀ b ∈ bins, IsZeroBin A b) :
    finiteSpectrum A bins = true :=
  (finiteSpectrum_iff A bins).mpr fun b hb =>
    have ⟨hre, him⟩ := h b hb
    ⟨Arith.finite_of_isZero hre, Arith.finite_of_isZero him, Arith.finite_of_isZero (isZero_magnitude hA (h b hb))⟩

/-- R82: no zero is greater than another, so bin 0 is never replaced. -/
theorem peakBin_of_zeros (hA : A.ZeroLaws) {bins : List (V × V)} (h : ∀ b ∈ bins, IsZeroBin A b) : peakBin A bins = 0 := by
  cases bins with
  | nil => rfl
  | cons b bs =>
    obtain ⟨hb, hbs⟩ := List.forall_mem_cons.mp h
    refine scanPeak_of_not_gt (fun x hx => ?_) 1 0
    obtain ⟨c, hc, rfl⟩ := List.mem_map.mp hx
    exact hA.1 _ _ (isZero_magnitude hA (hbs c hc)) (isZero_magnitude hA hb)

end Zeros

/-! ## The operations -/

theorem bins_of_exec_xform {s t : State} (h : exec .xform s = .next t) :
    t.bins = (spectrumOf s.transform s.platform.n s.tw (elems s.platform.n s.frame)).take (s.platform.n / 2) := by
  rw [exec_xform] at h
  cases h
  exact Block.State.bins_of_spectrum rfl rfl (spectrumOf_length ..)

/-- `XF_ZERO`: `XFORM` of an all-zero frame leaves an all-zero spectrum. -/
theorem isZeroBin_of_exec_xform {s t : State} {m : Nat} (hX : s.transform.XfZero s.arith) (hm : 1 ≤ m)
    (hn : s.platform.n = 2 ^ m) (hlen : s.frame.length = s.platform.n) (htw : s.tw = s.transform.init s.platform.n)
    (hz : ∀ v ∈ s.frame, s.arith.isZero v = true) (h : exec .xform s = .next t) : ∀ b ∈ t.bins, IsZeroBin s.arith b := by
  intro b hb
  rw [bins_of_exec_xform h, elems_self hlen, htw, hn] at hb
  obtain ⟨k, hk, rfl⟩ := List.mem_map.mp (List.mem_of_mem_take hb)
  exact hX m s.frame hm (hlen.trans hn) hz k (List.mem_range.mp hk)

/-- R82: on an all-zero spectrum `PEAK` finds bin 0, and `MAP` maps it to Low. -/
theorem exec_peak_map_of_zeros {s : State} (hA : s.arith.ZeroLaws) (hn : 1 ≤ s.platform.n)
    (hz : ∀ b ∈ s.bins, IsZeroBin s.arith b) :
    ∃ t u, exec .peak s = .next t ∧ t.kstar = 0 ∧ exec .map t = .next u ∧ u.band = .low := by
  have hk : peakBin s.arith s.bins = 0 := peakBin_of_zeros hA hz
  refine ⟨_, _, exec_peak (finiteSpectrum_of_zeros hA hz), hk, exec_map _, ?_⟩
  simpa [hk] using bandOf_zero s.platform.fs hn

theorem exec_peak_eq_refused_iff {s : State} :
    exec .peak s = .refused .nonFiniteSpectrum ↔ finiteSpectrum s.arith s.bins = false := by
  refine ⟨fun h => ?_, exec_peak_refused⟩
  by_contra hf
  rw [exec_peak (eq_true_of_ne_false hf)] at h
  cases h

/-! ## The real numbers -/

@[simp] theorem gt_real_eq_true_iff {a b : ℝ} : real.gt a b = true ↔ b < a := decide_eq_true_iff

@[simp] theorem gt_real_eq_false_iff {a b : ℝ} : real.gt a b = false ↔ a ≤ b := by
  rw [← Bool.not_eq_true, gt_real_eq_true_iff, not_lt]

@[simp] theorem zero_real : real.zero = 0 := rfl

@[simp] theorem finite_real (v : ℝ) : real.finite v = true := rfl

theorem isZero_real_iff {v : ℝ} : real.isZero v = true ↔ v = 0 := by
  refine Iff.trans ?_ le_antisymm_iff.symm
  simp [Arith.isZero]

theorem nonneg_real_iff {v : ℝ} : real.nonneg v = true ↔ 0 ≤ v := by
  simp [Arith.nonneg]

theorem gtOrder_real : real.GtOrder := by
  simp only [Arith.GtOrder, gt_real_eq_true_iff, gt_real_eq_false_iff]
  refine ⟨fun a _ => le_rfl, fun a b c _ _ _ hab hbc => hbc.trans hab, fun a b c _ _ _ hab hba hbc hcb => ?_⟩
  exact ⟨hab.trans hbc, hcb.trans hba⟩

theorem zeroLaws_real : real.ZeroLaws := by
  simp only [Arith.ZeroLaws, Arith.ZeroNotGt, Arith.MulZero, Arith.AddZero, Arith.SqrtZero, isZero_real_iff,
    gt_real_eq_false_iff]
  refine ⟨?_, ?_, ?_, ?_⟩
  · rintro _ _ rfl rfl; exact le_rfl
  · rintro _ x rfl -; exact ⟨zero_mul x, mul_zero x⟩
  · rintro _ _ rfl rfl; exact add_zero 0
  · rintro _ rfl; exact Real.sqrt_zero

theorem sqrtMono_real : real.SqrtMono := by
  simp only [Arith.SqrtMono, gt_real_eq_false_iff]
  exact fun a b _ _ hab => Real.sqrt_le_sqrt hab

theorem nonNeg_real : real.NonNeg := by
  simp only [Arith.NonNeg, nonneg_real_iff, gt_real_eq_false_iff]
  exact ⟨fun x _ _ => mul_self_nonneg x, fun a b ha hb _ => add_nonneg ha hb, fun a _ => ⟨rfl, Real.sqrt_nonneg a⟩⟩

theorem best_real_iff {l : List ℝ} {b : ℕ} : Best real.gt l b ↔
    ∃ h : b < l.length, (∀ y ∈ l, y ≤ l[b]) ∧ ∀ j (hj : j < b), l[j]'(hj.trans h) < l[b] := by
  simp only [Best, gt_real_eq_true_iff, gt_real_eq_false_iff]

/-- The real arithmetic with the square root dropped: its magnitudes are the sums of squares. -/
noncomputable def rootless : Arith ℝ := { real with sqrt := fun v => v }

theorem magnitude_rootless_nonneg (b : ℝ × ℝ) : 0 ≤ magnitude rootless b :=
  add_nonneg (mul_self_nonneg b.1) (mul_self_nonneg b.2)

theorem map_magnitude_real (bins : List (ℝ × ℝ)) :
    bins.map (magnitude real) = (bins.map (magnitude rootless)).map Real.sqrt := by
  rw [List.map_map]
  rfl

/-- R83: the root is strictly increasing on the sums of squares, so both scans find the one least maximum. -/
theorem peakBin_rootless (bins : List (ℝ × ℝ)) : peakBin real bins = peakBin rootless bins := by
  rcases eq_or_ne bins [] with rfl | hne
  · rfl
  have hroot : Best real.gt (bins.map (magnitude real)) (peakBin real bins) :=
    peakBin_best gtOrder_real hne fun _ _ => rfl
  have hsum : Best real.gt (bins.map (magnitude rootless)) (peakBin rootless bins) :=
    peakBin_best (A := rootless) gtOrder_real hne fun _ _ => rfl
  rw [map_magnitude_real] at hroot
  refine ((best_map_iff fun x hx y hy => ?_).mp hroot).unique hsum
  obtain ⟨c, -, rfl⟩ := List.mem_map.mp hy
  rw [Bool.eq_iff_iff, gt_real_eq_true_iff, gt_real_eq_true_iff, Real.sqrt_lt_sqrt_iff (magnitude_rootless_nonneg c)]

/-! ## The band mapper -/

/-- R85: the exact comparison of natural numbers gives the Band of the real frequency. -/
theorem isBandOf_bandOf (fs k : ℕ) {n : ℕ} (hn : 1 ≤ n) : IsBandOf ((k : ℝ) * fs / n) (bandOf fs n k) := by
  have hn' : (0 : ℝ) < n := by exact_mod_cast hn
  rcases hb : bandOf fs n k with _ | _ | _
  · rw [bandOf_eq_low_iff] at hb
    rw [IsBandOf, div_lt_iff₀ hn']
    exact_mod_cast hb
  · rw [bandOf_eq_mid_iff] at hb
    rw [IsBandOf, div_lt_iff₀ hn', le_div_iff₀ hn']
    exact_mod_cast hb
  · rw [bandOf_eq_high_iff] at hb
    rw [IsBandOf, le_div_iff₀ hn']
    exact_mod_cast hb

section ThresholdBins

variable {fs : ℕ} (hf : 0 < fs) (n k : ℕ)
include hf

theorem kMid_le_iff : kMid fs n ≤ k ↔ 500 * n ≤ k * fs := thresholdBin_le_iff hf 500 n k

theorem kHigh_le_iff : kHigh fs n ≤ k ↔ 2000 * n ≤ k * fs := thresholdBin_le_iff hf 2000 n k

theorem kMid_le_kHigh : kMid fs n ≤ kHigh fs n := by
  have hhigh := (kHigh_le_iff hf n (kHigh fs n)).mp le_rfl
  rw [kMid_le_iff hf]
  omega

theorem bandOf_eq_low_iff_lt_kMid : bandOf fs n k = .low ↔ k < kMid fs n := by
  rw [bandOf_eq_low_iff, ← not_le, ← not_le, kMid_le_iff hf]

theorem bandOf_eq_mid_iff_kMid_le : bandOf fs n k = .mid ↔ kMid fs n ≤ k ∧ k < kHigh fs n := by
  rw [bandOf_eq_mid_iff, ← not_le, ← not_le, kMid_le_iff hf, kHigh_le_iff hf]

theorem bandOf_eq_high_iff_kHigh_le : bandOf fs n k = .high ↔ kHigh fs n ≤ k := by
  rw [bandOf_eq_high_iff, kHigh_le_iff hf]

end ThresholdBins

theorem kMid_reference : kMid 44100 1024 = 12 :=
  eq_of_forall_ge_iff fun k => by rw [kMid_le_iff (by decide)]; omega

theorem kHigh_reference : kHigh 44100 1024 = 47 :=
  eq_of_forall_ge_iff fun k => by rw [kHigh_le_iff (by decide)]; omega

end Sys2Proof.Machine

/-! ## Binary32 (R80) -/

namespace Sys2Proof.Machine.Binary32

theorem gt_zero_of_key_nonneg {x : Sample} (h : 0 ≤ key x) : arith.gt arith.zero x = false := by
  have hz : key 0x00000000#32 = 0 := by decide
  simp [arith, gt, hz, h]

/-- A word with a clear sign bit is not less than zero. -/
theorem gt_zero_pack {p : Nat} (h : p < 2 ^ 31) : arith.gt arith.zero (pack false p) = false :=
  gt_zero_of_key_nonneg (by simp [key_pack false h])

theorem key_of_nonneg {x : Sample} (h : arith.nonneg x = true) : key x = magPat x := by
  obtain ⟨-, h0 | hs⟩ := nonneg_iff.mp h
  · simp [key, h0]
  · simp [key, hs]

theorem value_of_nonneg {x : Sample} (h : arith.nonneg x = true) : value x = units (magPat x) := by
  obtain ⟨-, h0 | hs⟩ := nonneg_iff.mp h
  · simp [value_of_magPat_zero h0, h0, units]
  · simp [value, hs]

/-! ### Squares and sums are not negative -/

theorem gt_zero_mul_self {x : Sample} (hx : finite x = true) : arith.gt arith.zero (mul x x) = false := by
  simp only [mul, not_isNaN_of_finite hx, not_isInf_of_finite hx, Bool.or_self, Bool.false_eq_true, if_false, bne_self_eq_false]
  exact gt_zero_pack (roundPat_lt _ _)

theorem gt_zero_add {a b : Sample} (ha : arith.nonneg a = true) (hb : arith.nonneg b = true) :
    arith.gt arith.zero (add a b) = false := by
  have haf := (nonneg_iff.mp ha).1
  have hbf := (nonneg_iff.mp hb).1
  simp only [add, not_isNaN_of_finite haf, not_isNaN_of_finite hbf, not_isInf_of_finite haf, not_isInf_of_finite hbf,
    Bool.or_self, Bool.false_eq_true, if_false, value_of_nonneg ha, value_of_nonneg hb]
  split
  · exact gt_zero_of_key_nonneg (by simp [key_pack _ (show 0 < 2 ^ 31 by decide)])
  · rw [decide_eq_false (by omega)]
    exact gt_zero_pack (roundPat_lt _ _)

/-! ### The square root -/

/-- The magnitude pattern of the root of a value of magnitude pattern `p`. -/
def sqrtPat (p : Nat) : Nat :=
  let n := units p * 2 ^ 149
  roundPat (2 * isqrt n + if isqrt n * isqrt n = n then 0 else 1) 1

theorem sqrtPat_zero : sqrtPat 0 = 0 := by decide

theorem sqrtPat_lt (p : Nat) : sqrtPat p < 2 ^ 31 := roundPat_lt _ _

theorem sqrtPat_mono {p q : Nat} (h : p ≤ q) : sqrtPat p ≤ sqrtPat q :=
  roundPat_mono 1 (sqrtNum_mono (Nat.mul_le_mul_right _ (units_mono h)))

theorem sqrt_of_pos {a : Sample} (ha : arith.nonneg a = true) (h0 : magPat a ≠ 0) :
    sqrt a = pack false (sqrtPat (magPat a)) := by
  obtain ⟨hf, hs⟩ := nonneg_iff.mp ha
  simp only [sqrt, not_isNaN_of_finite hf, not_isInf_of_finite hf, h0, hs.resolve_left h0, Bool.false_eq_true, if_false,
    sqrtPat]

/-- The root of a magnitude below `2^277` units is below `2^213` units, far from infinity. -/
theorem isqrt_lt_of_finite {x : Sample} (h : finite x = true) : isqrt (units (magPat x) * 2 ^ 149) < 2 ^ 213 := by
  have hu : units (magPat x) * 2 ^ 149 < 2 ^ 277 * 2 ^ 149 := Nat.mul_lt_mul_of_pos_right (units_lt h) (by decide)
  have hr := (isqrt_spec (units (magPat x) * 2 ^ 149)).1
  refine Nat.mul_self_lt_mul_self_iff.mp (hr.trans_lt (hu.trans_eq ?_))
  rw [← pow_add, ← pow_add]

theorem finite_pack_sqrtPat {x : Sample} (h : finite x = true) : finite (pack false (sqrtPat (magPat x))) = true := by
  refine finite_pack_roundPat false ?_
  have hr := isqrt_lt_of_finite h
  generalize isqrt (units (magPat x) * 2 ^ 149) = r at hr ⊢
  have hlt : (2 * r + if r * r = units (magPat x) * 2 ^ 149 then 0 else 1) < 2 ^ 214 := by split <;> omega
  rw [Nat.log2_eq_log_two]
  exact (Nat.log_lt_of_lt_pow' (by decide) hlt).le.trans (by decide)

theorem nonneg_sqrt {a : Sample} (ha : arith.nonneg a = true) : arith.nonneg (sqrt a) = true := by
  have hf := (nonneg_iff.mp ha).1
  by_cases h0 : magPat a = 0
  · rwa [sqrt, not_isNaN_of_finite hf, if_neg Bool.false_ne_true, if_pos h0]
  · rw [sqrt_of_pos ha h0, nonneg_iff]
    exact ⟨finite_pack_sqrtPat hf, .inr (msb_pack false (sqrtPat_lt _))⟩

theorem magPat_sqrt {a : Sample} (ha : arith.nonneg a = true) : magPat (sqrt a) = sqrtPat (magPat a) := by
  by_cases h0 : magPat a = 0
  · rw [sqrt, not_isNaN_of_finite (nonneg_iff.mp ha).1, if_neg Bool.false_ne_true, if_pos h0, h0, sqrtPat_zero]
  · rw [sqrt_of_pos ha h0, magPat_pack false (sqrtPat_lt _)]

/-- On values not less than zero the order is the order of the magnitude patterns. -/
theorem gt_eq_false_iff_of_nonneg {a b : Sample} (ha : arith.nonneg a = true) (hb : arith.nonneg b = true) :
    arith.gt a b = false ↔ magPat a ≤ magPat b := by
  have hgt : arith.gt a b = decide (key b < key a) := gt_of_finite (nonneg_iff.mp ha).1 (nonneg_iff.mp hb).1
  rw [hgt, key_of_nonneg ha, key_of_nonneg hb, decide_eq_false_iff_not]
  omega

theorem sqrtMono : arith.SqrtMono := by
  intro a b ha hb hab
  rw [gt_eq_false_iff_of_nonneg ha hb] at hab
  refine (gt_eq_false_iff_of_nonneg (nonneg_sqrt ha) (nonneg_sqrt hb)).mpr ?_
  rw [magPat_sqrt ha, magPat_sqrt hb]
  exact sqrtPat_mono hab

theorem nonNeg : arith.NonNeg := by
  refine ⟨fun x hx _ => gt_zero_mul_self hx, fun a b ha hb _ => gt_zero_add ha hb, fun a ha => ?_⟩
  have hs := nonneg_sqrt ha
  simp only [Arith.nonneg, Bool.and_eq_true, Bool.not_eq_true'] at hs
  exact hs

end Sys2Proof.Machine.Binary32
end

section
/-! The Band Classifier (42_classifier.md), and the named properties its rules assume. -/

namespace Sys2Proof.Machine

open Reference

/-- Settles O27: the scan answers the least maximum of the magnitudes of bins `0 .. N/2-1`. -/
theorem peakFindsTheLeastBinOfMaximumMagnitude : Obligations.PeakFindsTheLeastBinOfMaximumMagnitude := by
  intro s a re im mag hfin
  have hfs : finiteSpectrum a s.bins = true := (Block.State.finiteSpectrum_bins_iff a s).mpr hfin
  refine ⟨peakBin a s.bins, exec_peak hfs, fun h2 => ?_, fun h4 => ?_, fun hgt h2 => ?_⟩
  · simpa using peakBin_lt a (Block.State.bins_ne_nil h2)
  · exact peakBin_of_length_le_one (by rw [Block.State.bins_length]; omega)
  · have hbest := peakBin_best hgt (Block.State.bins_ne_nil h2) fun b hb => ((finiteSpectrum_iff a s.bins).mp hfs b hb).2.2
    have hmags : s.bins.map (magnitude a) = (List.range (s.platform.n / 2)).map mag := by
      rw [Block.State.bins_eq_map, List.map_map]
      rfl
    rw [hmags, best_map_range_iff] at hbest
    exact hbest.2

/-- Settles O29. -/
theorem realPeakIsTheLeastArgmax : Obligations.RealPeakIsTheLeastArgmax := by
  intro bins hne
  obtain ⟨h, hmax, hlow⟩ := best_real_iff.mp (peakBin_best gtOrder_real hne fun _ _ => rfl)
  simp only [List.length_map, List.getElem_map, List.forall_mem_map, magnitude_real, ← sq] at h hmax hlow
  exact ⟨h, hmax, hlow⟩

/-- Settles O30: every magnitude is a zero, and by `XF_ZERO` every bin of the spectrum of a zero frame is. -/
theorem zeroSpectrumAndZeroFrameAreLow : Obligations.ZeroSpectrumAndZeroFrameAreLow := by
  refine ⟨fun s hA hn hz => exec_peak_map_of_zeros hA hn (s.forall_mem_bins_iff.mpr hz), ?_⟩
  intro s m hA hX hm hn hlen htw hz
  obtain ⟨t, ht⟩ : ∃ t, exec .xform s = .next t := ⟨_, exec_xform s⟩
  have hzt := isZeroBin_of_exec_xform hX hm hn hlen htw hz ht
  have hnt : 1 ≤ t.platform.n := by
    rw [exec_platform ht, hn]
    exact Nat.one_le_two_pow
  rw [← exec_arith ht] at hA hzt
  obtain ⟨u, v, hu, hk, hv, hlow⟩ := exec_peak_map_of_zeros hA hnt hzt
  exact ⟨t, u, v, ht, hu, hk, hv, hlow⟩

/-- Settles O31: the binary32 bins are those of V14 scaled by `2^-24`; their sums of squares differ and round to one root. -/
theorem squareRootMayNotBeDropped : Obligations.SquareRootMayNotBeDropped :=
  ⟨peakBin_rootless, [(0x39800000#32, 0x00000000#32), (0x39800000#32, 0x33C00000#32)], by decide, by decide⟩

/-- Settles O33. -/
theorem mapGivesTheBandOfTheFrequency : Obligations.MapGivesTheBandOfTheFrequency := by
  intro s
  exact ⟨_, exec_map s, (bandOf_eq_low_iff _ _ _).mpr, fun h500 h2000 => (bandOf_eq_mid_iff _ _ _).mpr ⟨h500, h2000⟩,
    (bandOf_eq_high_iff _ _ _).mpr, isBandOf_bandOf _ _⟩

/-- Settles O34. -/
theorem thresholdBinsGiveTheBand : Obligations.ThresholdBinsGiveTheBand := by
  refine ⟨fun fs n k hf _ => ⟨kMid_le_kHigh hf n, bandOf_eq_low_iff_lt_kMid hf n k, bandOf_eq_mid_iff_kMid_le hf n k,
    bandOf_eq_high_iff_kHigh_le hf n k, fun j => (kMid_le_iff hf n j).symm, fun j => (kHigh_le_iff hf n j).symm⟩,
    kMid_reference, kHigh_reference, fun k => ?_⟩
  have hf : 0 < 44100 := by decide
  rw [bandOf_eq_low_iff_lt_kMid hf, bandOf_eq_mid_iff_kMid_le hf, bandOf_eq_high_iff_kHigh_le hf, kMid_reference,
    kHigh_reference, Nat.lt_succ_iff, Nat.lt_succ_iff]
  exact ⟨Iff.rfl, Iff.rfl, Iff.rfl⟩

/-- Settles O56. -/
theorem realArithmeticHasTheNamedProperties : Obligations.RealArithmeticHasTheNamedProperties := by
  obtain ⟨hgt, hmul, hadd, hsqrt⟩ := zeroLaws_real
  refine ⟨gtOrder_real, hgt, hmul, hadd, hsqrt, sqrtMono_real, nonNeg_real, fun n i _ _ => ?_⟩
  exact (abs_eq_zero.mpr (sub_self (w n i))).le

/-- Settles O57: the root is rounded from a number that grows with its operand. -/
theorem binaryThirtyTwoRootIsMonotone : Obligations.BinaryThirtyTwoRootIsMonotone :=
  ⟨Binary32.sqrtMono, Binary32.nonNeg, Binary32.gtOrder, Binary32.zeroNotGt, Binary32.mulZero, Binary32.addZero,
    Binary32.sqrtZero⟩

/-- Settles O28. -/
theorem peakRefusesANonFiniteSpectrum : Obligations.PeakRefusesANonFiniteSpectrum := by
  intro s a re im mag
  have hfin : finiteSpectrum a s.bins = true ↔
      ∀ k, k < s.platform.n / 2 → a.finite (re k) = true ∧ a.finite (im k) = true ∧ a.finite (mag k) = true :=
    Block.State.finiteSpectrum_bins_iff a s
  have hrefused : exec .peak s = .refused .nonFiniteSpectrum ↔ ¬ finiteSpectrum a s.bins = true := by
    rw [Bool.not_eq_true]
    exact exec_peak_eq_refused_iff
  rw [hrefused, hfin]
  simp only [not_forall, not_and_or, Bool.not_eq_true, exists_prop]

/-- Settles O35. -/
theorem thresholdFrequenciesBelongToTheUpperBand : Obligations.ThresholdFrequenciesBelongToTheUpperBand := by
  refine ⟨fun fs n k hn h => ?_, fun fs n k _ h => ?_, fun fs n T => ?_, rfl, rfl, by decide, by decide, fun k => ?_⟩
  · rw [bandOf_eq_mid_iff]; omega
  · rw [bandOf_eq_high_iff]; omega
  · simp only [dvd_iff_exists_eq_mul_left, eq_comm]
  · omega

end Sys2Proof.Machine
end

section
/-! SUPPORT. The cursor sequence (R96, R98): the multiples of `N` modulo `L`. -/

namespace Sys2Proof.Machine

variable {l n : Nat}

/-- `m` advances from cursor 0. -/
theorem iterate_advance_zero (h : 0 < l) (m : Nat) : (fun c => modL l (c + n))^[m] 0 = m * n % l := by
  induction m with
  | zero => simp
  | succ m ih => rw [Function.iterate_succ_apply', ih, modL_of_pos h, Nat.mod_add_mod, Nat.succ_mul]

/-- With `gcd(L, N)` taken out, the sequence is that of a step that is coprime to its modulus. -/
theorem mul_mod_eq_gcd_mul (m : Nat) : m * n % l = Nat.gcd l n * (m * (n / Nat.gcd l n) % (l / Nat.gcd l n)) := by
  rw [← Nat.mul_mod_mul_left, Nat.mul_left_comm, Nat.mul_div_cancel' (Nat.gcd_dvd_right l n),
    Nat.mul_div_cancel' (Nat.gcd_dvd_left l n)]

/-- R98: the least period is `L / gcd(L, N)`. -/
theorem mul_mod_eq_mul_mod_iff (h : 0 < l) {m j : Nat} :
    m * n % l = j * n % l ↔ m % (l / Nat.gcd l n) = j % (l / Nat.gcd l n) := by
  have hg : 0 < Nat.gcd l n := Nat.gcd_pos_of_pos_left n h
  rw [mul_mod_eq_gcd_mul m, mul_mod_eq_gcd_mul j, Nat.mul_right_inj hg.ne']
  exact ⟨Nat.ModEq.cancel_right_of_coprime (Nat.coprime_div_gcd_div_gcd hg), Nat.ModEq.mul_right _⟩

/-- R98: the values taken are the multiples of `gcd(L, N)` below `L`. -/
theorem exists_mul_mod_eq_iff (h : 0 < l) {c : Nat} :
    (∃ m, m < l / Nat.gcd l n ∧ m * n % l = c) ↔ c < l ∧ Nat.gcd l n ∣ c := by
  have hg : 0 < Nat.gcd l n := Nat.gcd_pos_of_pos_left n h
  constructor
  · rintro ⟨m, -, rfl⟩
    exact ⟨Nat.mod_lt _ h, mul_mod_eq_gcd_mul m ▸ Nat.dvd_mul_right ..⟩
  · rintro ⟨hc, d, rfl⟩
    have hd : d < l / Nat.gcd l n := (Nat.lt_div_iff_mul_lt' (Nat.gcd_dvd_left l n) d).mpr hc
    obtain ⟨m, hm, hmd⟩ := Nat.exists_mul_mod_eq_of_coprime d (Nat.coprime_div_gcd_div_gcd hg).symm (Nat.ne_zero_of_lt hd)
    refine ⟨m, hm, ?_⟩
    rw [mul_mod_eq_gcd_mul, Nat.mul_comm m, hmd, Nat.mod_eq_of_lt hd]

/-- R98: where `N` divides `L`, `ceil(L/N)` advances are `L` exactly; where `L` divides `N`, every advance is a multiple of `L`. -/
theorem ceilDiv_mul_mod_eq_zero (hn : 0 < n) (h : n ∣ l ∨ l ∣ n) : (l + n - 1) / n * n % l = 0 := by
  rcases h with ⟨k, rfl⟩ | hln
  · have hk : (n * k + n - 1) / n = k :=
      Nat.div_eq_of_lt_le (by rw [Nat.mul_comm]; omega) (by rw [Nat.succ_mul, Nat.mul_comm]; omega)
    rw [hk, Nat.mul_comm, Nat.mod_self]
  · exact Nat.mod_eq_zero_of_dvd (Nat.dvd_mul_left_of_dvd hln _)

end Sys2Proof.Machine
end

section
/-! SUPPORT. Cycles of the machine the host runs: from a state that meets the invariant, its runs are the block's over 32-bit words
(R105); and a cycle whose spectrum is not finite (R91). -/

namespace Sys2Proof.Block

open Sys2Proof.Machine

variable {V : Type} [Inhabited V] {a : Numerics V}

/-- A step of the operation `PHASE` names, and the run that goes on from there. -/
theorem core_run_of_at {p : Platform V} {k : Nat} {s t : State V} {o : Host.Outcome (State V) Fault Refusal} (i : Instr)
    (hh : s.host = []) (hi : s.phase = encode i) (hx : perform a i s = .next t) (h : (core a p).run k t = o) :
    (core a p).run (k + 1) s = o :=
  (core_run_succ ((step_of_at hh hi).trans hx) p k).trans h

/-- A run ends with the first refusal. -/
theorem core_run_refused_of_at {p : Platform V} {k : Nat} {s : State V} {r : Refusal} (i : Instr) (hh : s.host = [])
    (hi : s.phase = encode i) (hx : perform a i s = .refused r) : (core a p).run (k + 1) s = .refused r := by
  have hs : (core a p).step s = .refused r := (step_of_at hh hi).trans hx
  simp only [Host.Core.run, hs]

/-- A cycle whose spectrum is not finite runs up to `PEAK`, which refuses it (R91). -/
theorem core_run_cycle_refused {p : Platform V} {c : Nat} {s : State V} (h : AtCycle a p c s) (hl : 0 < p.l)
    (hf : cycleFinite a p c = false) (q : Platform V) : (core a q).run cycleSteps s = .refused .nonFiniteSpectrum := by
  obtain ⟨hp, hh, rfl, rfl, hw, ht, -, -⟩ := h
  refine core_run_of_at .fetch hh hp (perform_fetch (frameMissing_eq_false hl)) ?_
  refine core_run_of_at .adv hh rfl (perform_adv _) ?_
  refine core_run_of_at .window hh rfl (perform_window_of_cycle (c := s.cursor) rfl hw) ?_
  refine core_run_of_at .xform hh rfl (perform_xform_of_cycle (c := s.cursor) rfl ht) ?_
  refine core_run_refused_of_at .peak hh rfl (perform_peak_refused ?_)
  rw [bins_of_cycle (c := s.cursor) rfl rfl]
  exact hf

/-- A cycle ends in the state of its composed stages (R105), or `PEAK` refuses its spectrum (R91). -/
theorem core_run_cycle {p : Platform V} {c : Nat} {s : State V} (h : AtCycle a p c s) (hl : 0 < p.l) (q : Platform V) :
    (core a q).run cycleSteps s =
      if cycleFinite a p c then .next (afterCycle a s) else .refused .nonFiniteSpectrum := by
  split
  next hf => exact (trace_cycle h hl hf).run q
  next hf => exact core_run_cycle_refused h hl (Bool.eq_false_iff.mpr hf) q

end Sys2Proof.Block

namespace Sys2Proof.Machine

open Sys2Proof.Block

/-- Runs of the machine the host runs are the block's. -/
theorem core_run_eq (p : Platform Sample) (k : Nat) (s : State) : core.run k s = (Block.core numerics p).run k s := by
  induction k generalizing s with
  | zero => rfl
  | succ k ih =>
    have hs : core.step s = (Block.core numerics p).step s := step_eq_step s
    simp only [Host.Core.run, hs]
    split
    · exact ih _
    · rfl
    · rfl

/-- So are its `EMIT` events. -/
theorem emits_eq (k : Nat) (s : State) : emits k s = emitsOf (Block.step numerics) k s :=
  congrArg (emitsOf · k s) (funext step_eq_step)

/-- A state of a run at `FETCH` is at the start of the cycle at its cursor. -/
theorem RunInv.atCycle {s : State} (hs : RunInv s) (hp : s.phase = encode .fetch) (hh : s.host = []) :
    AtCycle numerics s.platform s.cursor s ∧ s.cursor < s.platform.l ∧ s.written.win = true ∧ s.written.tw = true := by
  have hat : ∀ {is : List Instr}, s.isAt is ↔ .fetch ∈ is := State.isAt_iff hp
  obtain ⟨hmarkWin, hwin⟩ := hs.winReady (hat.not.mpr (by simp))
  obtain ⟨hmarkTw, htw⟩ := hs.twReady (hat.not.mpr (by simp))
  have hfault : s.fault = false := Bool.eq_false_iff.mpr (hs.faultIffHalt.not.mpr (hat.not.mpr (by simp)))
  have hcause : s.cause = 0#3 := by rw [hs.causeRight, hfault]; rfl
  exact ⟨⟨hp, hh, rfl, rfl, hwin, htw, hfault, hcause⟩, hs.cursorRange (hat.not.mpr (by simp)), hmarkWin, hmarkTw⟩

/-- What one cycle of a run answers (R105, R91). -/
theorem core_run_cycle_of_runInv {s : State} (hs : RunInv s) (hp : s.phase = encode .fetch) (hh : s.host = []) :
    core.run cycleSteps s =
      if cycleFinite s.platform s.cursor then .next (afterCycle numerics s) else .refused .nonFiniteSpectrum := by
  obtain ⟨hat, hc, -⟩ := hs.atCycle hp hh
  exact (core_run_eq s.platform cycleSteps s).trans (core_run_cycle hat (Nat.zero_lt_of_lt hc) s.platform)

/-- The state a cycle of a run ends in depends on the platform and the cursor alone (R105). -/
theorem afterCycle_eq_of_runInv {s u : State} (hs : RunInv s) (hu : RunInv u) (hsp : s.phase = encode .fetch)
    (hup : u.phase = encode .fetch) (hsh : s.host = []) (huh : u.host = []) (hp : s.platform = u.platform)
    (hc : s.cursor = u.cursor) : afterCycle numerics s = afterCycle numerics u := by
  obtain ⟨⟨-, -, -, -, hswin, hstw, hsfault, hscause⟩, -, hsmarkWin, hsmarkTw⟩ := hs.atCycle hsp hsh
  obtain ⟨⟨-, -, -, -, huwin, hutw, hufault, hucause⟩, -, humarkWin, humarkTw⟩ := hu.atCycle hup huh
  simp only [afterCycle, hsh, huh, hp, hc, hswin, hstw, hsfault, hscause, huwin, hutw, hufault, hucause, hsmarkWin, hsmarkTw,
    humarkWin, humarkTw]

end Sys2Proof.Machine
end

section
/-! The Frame Scheduler and its cycles (43_scheduler.md). -/

namespace Sys2Proof.Machine

open Sys2Proof.Block

/-- Settles O51: the invariant puts the tables in place and the cursor in range, which is all a cycle needs. -/
theorem oneCycleComposesTheStages : Obligations.OneCycleComposesTheStages := by
  intro s hs hp hh hf
  obtain ⟨hat, hc, -⟩ := hs.atCycle hp hh
  have hl : 0 < s.platform.l := Nat.zero_lt_of_lt hc
  have htr := trace_cycle hat hl hf
  obtain ⟨hphase, -, -, hcursor, -, -, hfault, hcause⟩ := atCycle_afterCycle hat hl
  obtain ⟨hframe, hre, him, hkstar, hband, hind⟩ := holdsCycle_afterCycle hat
  exact ⟨afterCycle numerics s, (core_run_eq s.platform 8 s).trans (htr.run _), hphase, hcursor, hkstar, hband, hind, hframe, hre,
    him, rfl, rfl, hfault, hcause, rfl, (emits_eq 8 s).trans htr.emits⟩

/-- Settles O52. -/
theorem bandsOfARunAreAFunctionOfTheSlices : Obligations.BandsOfARunAreAFunctionOfTheSlices := by
  intro m s hs hp hh hf
  obtain ⟨hat, hc, -⟩ := hs.atCycle hp hh
  obtain ⟨⟨hphase, -, -, hcursor, -⟩, htr⟩ := trace_cycles hat hc m hf
  rw [Nat.mul_comm 8 m]
  exact ⟨_, (core_run_eq s.platform _ s).trans (htr.run _), hphase, hcursor, (emits_eq _ s).trans htr.emits⟩

/-- Settles O53: the machine is the block over 32-bit words, which runs so over any carrier. -/
theorem runFromResetEmitsTheBandsOfTheSlices : Obligations.RunFromResetEmitsTheBandsOfTheSlices := by
  intro p m _ hp hf
  obtain ⟨t, hrun, hphase, hcursor, hfault, -, -, -, -, hdark, hlast, hemits⟩ :=
    theBlockRunsOverAnyCarrier Sample numerics p m hp hf
  refine ⟨t, (core_run_eq p _ _).trans hrun, hphase, hcursor, hfault, hdark, fun j hj => ?_, (emits_eq _ _).trans hemits⟩
  obtain ⟨-, -, -, -, -, hind⟩ := hlast j hj
  exact hind

/-- Settles O54: what a cycle answers is a function of the platform and the cursor, the refusal of `PEAK` included. -/
theorem onlyTheCursorPassesBetweenCycles : Obligations.OnlyTheCursorPassesBetweenCycles := by
  intro s u hs hu hsp hup hsh huh hp hc
  refine (core_run_cycle_of_runInv hs hsp hsh).trans (.trans ?_ (core_run_cycle_of_runInv hu hup huh).symm)
  rw [afterCycle_eq_of_runInv hs hu hsp hup hsh huh hp hc, hp, hc]

/-- Settles O19. -/
theorem cursorSequenceAndItsPeriod : Obligations.CursorSequenceAndItsPeriod :=
  ⟨fun _ _ m hl => iterate_advance_zero hl m, fun _ _ _ _ hl => mul_mod_eq_mul_mod_iff hl,
    fun _ _ _ hl => exists_mul_mod_eq_iff hl, by norm_num, by norm_num, fun _ _ _ hn h => ceilDiv_mul_mod_eq_zero hn h⟩

/-- Settles O41: each row of R92's table gives the code of the operation that follows. -/
theorem successorTable : Obligations.SuccessorTable := by
  intro i s t h
  rw [exec_phase h]
  refine ⟨fun c hc => ?_, ?_⟩
  · cases i
    case cfgchk => simp at hc
    all_goals (obtain rfl : c = _ := by simpa using hc
               rfl)
  · rintro rfl
    exact ⟨fun hn => by rw [successor_cfgchk_pass hn]; rfl, fun hn => by rw [successor_cfgchk_error hn]; rfl⟩

/-- Settles O17. -/
theorem advMovesTheCursorByN : Obligations.AdvMovesTheCursorByN := by
  intro s hl
  rw [exec_adv, modL_of_pos hl]
  rfl

/-- Settles O36. -/
theorem emitAssertsExactlyOneLine : Obligations.EmitAssertsExactlyOneLine := by
  intro s
  refine ⟨onehot s.band, exec_emit s, ?_, ?_, ?_⟩
  all_goals (intro hb; rw [hb]; rfl)

/-- Settles O37. -/
theorem paceChangesOnlyThePhase : Obligations.PaceChangesOnlyThePhase := exec_pace

/-- Settles O38: in `HALT` the phase code that is written is the one held. -/
theorem haltChangesNothing : Obligations.HaltChangesNothing := by
  intro s
  refine ⟨exec_halt s, fun hp hh => ?_⟩
  have hat : s.phase = encode .halt := hp
  have hself : s.setPhase .halt = s := by rw [State.setPhase, ← hat]
  rw [step_of_at hh hat, exec_halt, hself]

end Sys2Proof.Machine
end

section
/-! SUPPORT. The degenerate band mapping (R107), the error the check finds (R108), the steps in `HALT` (R104, R109, R112), the
operations and steps that answer a next state (R106), and the stages of a cycle over zero samples (R114). -/

namespace Sys2Proof.Machine

/-! ## The degenerate band mapping -/

theorem degenerate_iff (fs n : Nat) : degenerate fs n = true ↔
    (¬ ∃ k, k < n / 2 ∧ 500 * n ≤ k * fs ∧ k * fs < 2000 * n) ∨ (¬ ∃ k, k < n / 2 ∧ 2000 * n ≤ k * fs) := by
  rw [← hasMid_iff, ← hasHigh_iff]
  simp [degenerate]

theorem degenerate_eq_false_iff (fs n : Nat) : degenerate fs n = false ↔
    (∃ k, k < n / 2 ∧ 500 * n ≤ k * fs ∧ k * fs < 2000 * n) ∧ (∃ k, k < n / 2 ∧ 2000 * n ≤ k * fs) := by
  rw [← Bool.not_eq_true, degenerate_iff, not_or, not_not, not_not]

/-- Bin 0 is Low, so only where no bin is scanned is it Low that no bin gives; and there no Band is given. -/
theorem degenerate_iff_exists_band (fs n : Nat) :
    degenerate fs n = true ↔ ∃ b : Band, ∀ k, k < n / 2 → bandOf fs n k ≠ b := by
  rw [degenerate_iff]
  constructor
  · rintro (hmid | hhigh)
    · exact ⟨.mid, fun k hk hb => hmid ⟨k, hk, (bandOf_eq_mid_iff ..).mp hb⟩⟩
    · exact ⟨.high, fun k hk hb => hhigh ⟨k, hk, (bandOf_eq_high_iff ..).mp hb⟩⟩
  · rintro ⟨_ | _ | _, hb⟩
    · have hnone : n / 2 = 0 := by
        by_contra hpos
        exact hb 0 (Nat.pos_of_ne_zero hpos) (bandOf_zero fs (by omega))
      exact .inr fun ⟨k, hk, _⟩ => by omega
    · exact .inl fun ⟨k, hk, hk'⟩ => hb k hk ((bandOf_eq_mid_iff ..).mpr hk')
    · exact .inr fun ⟨k, hk, hk'⟩ => hb k hk ((bandOf_eq_high_iff ..).mpr hk')

/-- Where the bin width is below 2000 Hz some bin lies in the Mid band: bin 1, or the first bin beyond 500 Hz, which a width below
500 Hz leaves under 1000 Hz. -/
theorem exists_mid_bin {fs n : Nat} (hpos : 0 < fs) (hfs : fs < 2000 * n) : ∃ k, 500 * n ≤ k * fs ∧ k * fs < 2000 * n := by
  by_cases hwide : 500 * n ≤ fs
  · exact ⟨1, by omega, by omega⟩
  · have hbelow : 500 * n / fs * fs ≤ 500 * n := Nat.div_mul_le_self ..
    have habove : 500 * n < 500 * n / fs * fs + fs := Nat.lt_div_mul_add hpos
    have hnext : (500 * n / fs + 1) * fs = 500 * n / fs * fs + fs := Nat.succ_mul ..
    exact ⟨500 * n / fs + 1, by omega, by omega⟩

/-- R107's closed form: the mapping is not degenerate exactly when bin 1 is below the High band and the last scanned bin is in it.
That `N` is a power of two is not needed. -/
theorem degenerate_eq_false_iff_closed (fs n : Nat) :
    degenerate fs n = false ↔ fs < 2000 * n ∧ 2000 * n ≤ (n / 2 - 1) * fs := by
  rw [degenerate_eq_false_iff]
  constructor
  · rintro ⟨⟨j, hj, hlo, hmid⟩, k, hk, hhigh⟩
    have hj0 : j ≠ 0 := by rintro rfl; omega
    exact ⟨(Nat.le_mul_of_pos_left fs (Nat.pos_of_ne_zero hj0)).trans_lt hmid,
      hhigh.trans (Nat.mul_le_mul_right fs (Nat.le_sub_one_of_lt hk))⟩
  · rintro ⟨hfs, hlast⟩
    have hpos : 0 < fs := Nat.pos_of_mul_pos_left (by omega : 0 < (n / 2 - 1) * fs)
    obtain ⟨j, hlo, hmid⟩ := exists_mid_bin hpos hfs
    have hj : j < n / 2 - 1 := Nat.lt_of_mul_lt_mul_right (hmid.trans_le hlast)
    exact ⟨⟨j, by omega, hlo, hmid⟩, n / 2 - 1, by omega, hlast⟩

theorem degenerate_iff_closed (fs n : Nat) :
    degenerate fs n = true ↔ n < 2 ∨ 2000 * n ≤ fs ∨ (n / 2 - 1) * fs < 2000 * n := by
  rw [← Bool.not_eq_false, degenerate_eq_false_iff_closed, not_and_or, not_lt, not_le]
  refine ⟨.inr, ?_⟩
  rintro (hn | h)
  · have hlast : n / 2 - 1 = 0 := by omega
    rw [hlast]; omega
  · exact h

/-- R107's threshold-bin form. -/
theorem degenerate_eq_false_iff_kMid_lt_kHigh {fs : Nat} (hf : 0 < fs) (n : Nat) :
    degenerate fs n = false ↔ Reference.kMid fs n < Reference.kHigh fs n ∧ Reference.kHigh fs n ≤ n / 2 - 1 := by
  simp only [degenerate_eq_false_iff, ← bandOf_eq_mid_iff, ← bandOf_eq_high_iff, bandOf_eq_mid_iff_kMid_le hf,
    bandOf_eq_high_iff_kHigh_le hf]
  constructor
  · rintro ⟨⟨j, hj, hlo, hmid⟩, k, hk, hhigh⟩
    omega
  · rintro ⟨hlt, hle⟩
    exact ⟨⟨Reference.kMid fs n, by omega, le_rfl, by omega⟩, Reference.kHigh fs n, by omega, le_rfl⟩

/-- Bins 0 and 1 do not give all three Bands. -/
theorem degenerate_of_few_bins (fs : Nat) {n : Nat} (h : n / 2 ≤ 2) : degenerate fs n = true := by
  rw [degenerate_iff_closed]
  have hlast : (n / 2 - 1) * fs ≤ 1 * fs := Nat.mul_le_mul_right fs (by omega)
  omega

theorem degenerate_zero_rate (n : Nat) : degenerate 0 n = true := by
  rw [degenerate_iff_closed]
  omega

theorem degenerate_reference_size (fs : Nat) : degenerate fs 1024 = false ↔ 4008 ≤ fs ∧ fs ≤ 2047999 := by
  rw [degenerate_eq_false_iff_closed]
  omega

/-! ## The error the check finds -/

section ConfigError

variable {V : Type} {p : Platform V}

theorem configError_nNotPow2 (h : ¬ ∃ m, p.n = 2 ^ m) : configError p = some .nNotPow2 := by
  rw [← isPow2_iff] at h
  simp [configError, h]

variable (hn : ∃ m, p.n = 2 ^ m)
include hn

theorem configError_tableMismatch (h : p.xfN ≠ p.n) : configError p = some .tableMismatch := by
  rw [← isPow2_iff] at hn
  simp [configError, hn, h]

variable (hx : p.xfN = p.n)
include hx

theorem configError_degenerateBands (h : degenerate p.fs p.n = true) : configError p = some .degenerateBands := by
  rw [← isPow2_iff] at hn
  simp [configError, hn, hx, h]

theorem configError_emptySource (hd : degenerate p.fs p.n = false) (h : p.l = 0) : configError p = some .emptySource := by
  rw [← isPow2_iff] at hn
  simp [configError, hn, hx, hd, h]

end ConfigError

/-- A configuration that passes has a size the transform is built for (R123). -/
theorem exists_size_of_configError_none {V : Type} {p : Platform V} (h : configError p = none) :
    ∃ m, 1 ≤ m ∧ p.n = 2 ^ m := by
  obtain ⟨hpow, -⟩ := (configError_eq_none_iff p).mp h
  obtain ⟨-, hbins⟩ := configError_none_bounds h
  obtain ⟨m, hm⟩ := (isPow2_iff p.n).mp hpow
  refine ⟨m, Nat.one_le_iff_ne_zero.mpr ?_, hm⟩
  rintro rfl
  simp [hm] at hbins

/-! ## The modes -/

/-- R115's table over the operation that follows. -/
theorem modeOf_successor {V : Type} (p : Platform V) (i : Instr) :
    (modeOf i = .run → modeOf (Block.successor p i) = .run) ∧
    (modeOf i = .halted → modeOf (Block.successor p i) = .halted) ∧
    (modeOf i = .startup → modeOf (Block.successor p i) = .startup ∨ (i = .xinit ∧ modeOf (Block.successor p i) = .run) ∨
      (i = .cfgchk ∧ modeOf (Block.successor p i) = .halted)) := by
  cases i
  case cfgchk => rcases Block.successor_cfgchk_cases (p := p) with h | h <;> simp [h, modeOf]
  all_goals simp [modeOf]

end Sys2Proof.Machine

namespace Sys2Proof.Block

open Sys2Proof.Machine

variable {V : Type} [Inhabited V] {a : Numerics V}

/-! ## Steps in `HALT` -/

/-- Any number of steps in `HALT` lead back to the same state, with no event (R112). -/
theorem trace_halt {s : State V} (hh : s.host = []) (hp : s.phase = encode .halt) (k : Nat) : Trace a k s [] s := by
  have hself : perform a .halt s = .next s := by rw [perform_halt, State.setPhase, ← hp]
  induction k with
  | zero => exact .done s
  | succ k ih => exact .silent .halt hh hp (by decide) hself ih

/-- A check that finds an error ends the run in the state that raising it leaves (R109, R111). -/
theorem trace_configError {s : State V} {e : ConfigError} (hh : s.host = []) (hp : s.phase = encode .cfgchk)
    (he : configError s.platform = some e) (k : Nat) : Trace a (k + 1) s [] (raiseConfigError e s) :=
  .silent .cfgchk hh hp (by decide) (perform_cfgchk_error he) (trace_halt (s := raiseConfigError e s) hh rfl k)

/-! ## The operations and steps that answer a next state -/

/-- Only `FETCH` and `PEAK` have a premise (R106). -/
theorem exists_perform_eq_next {s : State V} {i : Instr} (hfetch : i = .fetch → frameMissing s.platform = false)
    (hpeak : i = .peak → finiteSpectrum (a.arith s.platform.arith) s.bins = true) : ∃ t, perform a i s = .next t := by
  cases i
  case cfgchk =>
    rcases he : configError s.platform with _ | e
    · exact ⟨_, perform_cfgchk_pass he⟩
    · exact ⟨_, perform_cfgchk_error he⟩
  case fetch => exact ⟨_, perform_fetch (hfetch rfl)⟩
  case peak => exact ⟨_, perform_peak (hpeak rfl)⟩
  all_goals exact ⟨_, rfl⟩

/-- Under power a step answers where the operation `PHASE` names does, whatever is pending from the host. -/
theorem exists_stepWith_eq_next {exec : Instr → State V → Host.Outcome (State V) Fault Refusal} {s : State V} {i : Instr}
    (hi : s.phase = encode i) (hpower : ∀ r, s.host ≠ .powerOff :: r)
    (hx : ∀ r, ∃ t, exec i { s with host := r } = .next t) : ∃ t, stepWith exec s = .next t := by
  have hd : decode s.phase = .ok i := decode_eq_ok_iff.mpr hi
  match hh : s.host with
  | [] =>
    obtain ⟨t, ht⟩ := hx s.host
    exact ⟨t, (stepWith_of_idle hh hd).trans ht⟩
  | .run :: r =>
    obtain ⟨t, ht⟩ := hx r
    exact ⟨t, (stepWith_of_run hh hd).trans ht⟩
  | .reset p :: r => exact ⟨_, stepWith_of_reset hh⟩
  | .powerOff :: r => exact absurd hh (hpower r)

/-! ## A cycle over zero samples -/

section Silence

variable {p : Platform V} (hA : (a.arith p.arith).ZeroLaws)
  (hsrc : ∀ e, e < p.l → (a.arith p.arith).isZero (p.src.read e) = true)
  (hfin : ∀ i, i < p.n → (a.arith p.arith).finite ((a.arith p.arith).wcoef p.n i) = true) (hl : 0 < p.l) (c : Nat)
include hA hsrc hfin hl

/-- R71: every address read is one of the source's, and a zero sample times a finite coefficient is a zero. -/
theorem isZero_of_mem_cycleFrame {v : V} (hv : v ∈ cycleFrame a p c) : (a.arith p.arith).isZero v = true := by
  obtain ⟨-, hmul, -⟩ := hA
  rw [cycleFrame, windowed, ← List.map_uncurry_zip_eq_zipWith] at hv
  obtain ⟨⟨x, w⟩, hxw, rfl⟩ := List.mem_map.mp hv
  obtain ⟨hx, hw⟩ := List.of_mem_zip hxw
  simp only [frameAddrs, windowTable, List.mem_map, List.mem_range] at hx hw
  obtain ⟨e, ⟨i, -, rfl⟩, rfl⟩ := hx
  obtain ⟨j, hj, rfl⟩ := hw
  obtain ⟨hzero, -⟩ := hmul _ _ (hsrc _ (modL_lt hl (c + i))) (hfin j hj)
  exact hzero

variable {m : Nat} (hm : 1 ≤ m) (hn : p.n = 2 ^ m) (hX : (a.transform p.xf).XfZero (a.arith p.arith))
include hm hn hX

/-- R74: the transform of the frame of zeros is a spectrum of zeros. -/
theorem isZeroBin_of_mem_cycleSpectrum {b : V × V} (hb : b ∈ cycleSpectrum a p c) : IsZeroBin (a.arith p.arith) b := by
  obtain ⟨k, hk, rfl⟩ := List.mem_map.mp hb
  rw [List.mem_range] at hk
  have hzeros := hX m (cycleFrame a p c) hm ((cycleFrame_length p c).trans hn)
    (fun v hv => isZero_of_mem_cycleFrame hA hsrc hfin hl c hv) k (hn ▸ hk)
  rwa [← hn] at hzeros

/-- R82: a cycle over zero samples has a finite spectrum, whose peak is bin 0. -/
theorem cycleFinite_cyclePeak_of_zeros : cycleFinite a p c = true ∧ cyclePeak a p c = 0 := by
  have hz : ∀ b ∈ (cycleSpectrum a p c).take (p.n / 2), IsZeroBin (a.arith p.arith) b := fun b hb =>
    isZeroBin_of_mem_cycleSpectrum hA hsrc hfin hl c hm hn hX (List.mem_of_mem_take hb)
  exact ⟨finiteSpectrum_of_zeros hA hz, peakBin_of_zeros hA hz⟩

end Silence

end Sys2Proof.Block
end

section
/-! Configuration errors, and that there is no other exception (60_exceptions.md). -/

namespace Sys2Proof.Machine

open Sys2Proof.Block

/-- Settles O10: each clause names the first condition that holds, and the check raises or passes accordingly. -/
theorem configCheckRaisesTheFirstErrorOrPasses : Obligations.ConfigCheckRaisesTheFirstErrorOrPasses := by
  intro s n pow2 mid high raised
  refine ⟨fun hn => exec_cfgchk_error (configError_nNotPow2 hn),
    fun hn hx => exec_cfgchk_error (configError_tableMismatch hn hx),
    fun hn hx hd => exec_cfgchk_error (configError_degenerateBands hn hx ((degenerate_iff ..).mpr hd)),
    fun hn hx hmid hhigh hl => ?_, fun hn hx hmid hhigh hl => ?_⟩
  all_goals have hd : degenerate s.platform.fs s.platform.n = false := (degenerate_eq_false_iff ..).mpr ⟨hmid, hhigh⟩
  · exact exec_cfgchk_error (configError_emptySource hn hx hd hl)
  · exact exec_cfgchk_pass ((configError_eq_none_iff _).mpr ⟨(isPow2_iff _).mpr hn, hx, hd, hl⟩)

/-- Settles O11. -/
theorem degenerateMappingClosedForms : Obligations.DegenerateMappingClosedForms := by
  refine ⟨degenerate_iff_exists_band, degenerate_iff, fun fs m => degenerate_iff_closed fs (2 ^ m),
    fun fs m hf => degenerate_eq_false_iff_kMid_lt_kHigh hf (2 ^ m), degenerate_zero_rate, fun fs m h => ?_,
    degenerate_reference_size, (degenerate_reference_size _).mpr (by decide), kMid_reference, kHigh_reference⟩
  have hm : m ≤ 2 := Nat.le_of_lt_succ ((Nat.pow_lt_pow_iff_right (by decide : 1 < 2)).mp h)
  have hsize : 2 ^ m ≤ 2 ^ 2 := Nat.pow_le_pow_right (by decide) hm
  exact degenerate_of_few_bins fs (by omega)

/-- Settles O39: the check raises the error, and every step from there is a step in `HALT`. -/
theorem configErrorIsTheEndOfTheRun : Obligations.ConfigErrorIsTheEndOfTheRun := by
  intro s e hh hp he k
  have htr : Trace numerics (k + 1) s [] (raiseConfigError e s) := trace_configError hh hp he k
  have hrun : core.run (k + 1) s = .next (raiseConfigError e s) := (core_run_eq s.platform _ s).trans (htr.run _)
  exact ⟨hrun, (emits_eq _ s).trans htr.emits, fun hind => ⟨_, hrun, hind⟩⟩

/-- Settles O40: the check can only set `FAULT`, the other operations do not write it, and `HALT` is followed by `HALT`. -/
theorem onlyResetClearsTheFault : Obligations.OnlyResetClearsTheFault := by
  constructor
  · intro s t h hf hr
    rcases step_next_cases h with ⟨p, r, hh, -⟩ | ⟨i, r, hd, -, hx⟩
    · exact absurd hh (hr p r)
    by_cases hc : i = .cfgchk
    · subst hc
      have hne : s.phase ≠ 0xF#4 := by rw [decode_eq_ok_iff.mp hd]; decide
      rcases exec_next_cases hx with ⟨e, -, rfl⟩ | ⟨-, rfl⟩
      · exact ⟨rfl, fun hp => absurd hp hne⟩
      · exact ⟨hf, fun hp => absurd hp hne⟩
    · obtain ⟨hfault, hcause⟩ := exec_status hx hc
      refine ⟨hfault.trans hf, fun hp => ⟨?_, hcause⟩⟩
      obtain rfl : i = .halt := encode_injective ((decode_eq_ok_iff.mp hd).symm.trans hp)
      exact exec_phase hx
  · intro s p r hh
    exact ⟨_, stepWith_of_reset hh, rfl, decode_encode .cfgchk, rfl⟩

/-- Settles O44. -/
theorem modesAreLeftOnlyAsStated : Obligations.ModesAreLeftOnlyAsStated := by
  intro s t i hd hr h
  rcases step_next_cases h with ⟨p, r, hh, -⟩ | ⟨j, r, hd', -, hx⟩
  · exact absurd hh (hr p r)
  obtain rfl : i = j := Except.ok.inj (hd.symm.trans hd')
  have hphase := exec_phase hx
  exact ⟨successor s.platform i, decode_eq_ok_iff.mpr hphase, modeOf_successor s.platform i⟩

/-- Settles O50: at `FETCH` the configuration has passed the check, so the source has a sample. -/
theorem noOperationOfARunFails : Obligations.NoOperationOfARunFails := by
  intro s hs hpower hpeak
  obtain ⟨i, hi⟩ := exists_encode_of_wf s.phase hs.legalPhase
  have hmissing : i = .fetch → frameMissing s.platform = false := by
    rintro rfl
    obtain ⟨hl, -⟩ := configError_none_bounds (hs.checked ((State.isAt_iff hi).not.mpr (by simp)))
    exact frameMissing_eq_false hl
  have hfinite : i = .peak → finiteSpectrum s.arith s.bins = true := by
    rintro rfl
    exact hpeak hi
  refine exists_stepWith_eq_next hi hpower fun r => ?_
  rw [exec_eq_perform]
  exact exists_perform_eq_next hmissing hfinite

/-- Settles O55: the spectrum of the cycle is all zeros, so its peak is bin 0, which is Low. -/
theorem silenceIsLowEveryCycle : Obligations.SilenceIsLowEveryCycle := by
  intro s hs hp hh hA hX hfin hsrc
  have hcheck : configError s.platform = none := hs.checked ((State.isAt_iff (i := .fetch) hp).not.mpr (by simp))
  obtain ⟨hl, hbins⟩ := configError_none_bounds hcheck
  obtain ⟨m, hm, hn⟩ := exists_size_of_configError_none hcheck
  obtain ⟨hfinite, hpeak⟩ := cycleFinite_cyclePeak_of_zeros (a := numerics) hA hsrc hfin hl s.cursor hm hn hX
  have hlow : cycleBand s.platform s.cursor = .low := by
    rw [cycleBand, Block.cycleBand, hpeak]
    exact bandOf_zero _ (by omega)
  obtain ⟨t, hrun, -, -, hkstar, hband, hind, -, -, -, -, -, hfault, hcause, -⟩ :=
    oneCycleComposesTheStages s hs hp hh hfinite
  exact ⟨t, hrun, hkstar.trans hpeak, hband.trans hlow, by rw [hind, hlow]; rfl, hfault, hcause⟩

/-- Settles O18: the free value is the one `modL` gives for `L = 0`. -/
theorem advRunsWithAnEmptySource : Obligations.AdvRunsWithAnEmptySource :=
  fun s _ => ⟨_, exec_adv s⟩

end Sys2Proof.Machine
end

section
/-! SUPPORT. The first step of a block that the host resets (R119, R121) or switches off (R128), and the smallest size that passes
the check (R123). -/

namespace Sys2Proof.Block

open Sys2Proof.Machine

variable {V : Type}

theorem stepWith_of_powerOff [Inhabited V] {exec : Instr → State V → Host.Outcome (State V) Fault Refusal} {s : State V}
    {r : List (HostAction V)} (hh : s.host = .powerOff :: r) : stepWith exec s = .fault .poweredOff := by
  simp only [stepWith, hh]

theorem emitted_of_powerOff {s : State V} {r : List (HostAction V)} (hh : s.host = .powerOff :: r) : emitted s = none := by
  simp only [emitted, hh]

end Sys2Proof.Block

namespace Sys2Proof.Machine

/-- A run that begins with a reset goes on from the reset state of the platform presented, and depends on nothing else. -/
theorem core_run_of_reset {s : State} {p : Platform Sample} {r : List (HostAction Sample)} (hh : s.host = .reset p :: r)
    (k : Nat) : core.run (k + 1) s = core.run k (State.afterReset p r) := by
  have hstep : Block.step numerics s = .next (State.afterReset p r) := Block.stepWith_of_reset hh
  exact (core_run_eq p _ s).trans ((Block.core_run_succ hstep p k).trans (core_run_eq p k _).symm)

/-- The check leaves three bins or more to scan, so four is no size that passes, and eight is the next power of two. -/
theorem eight_le_of_configError_none {V : Type} {p : Platform V} (h : configError p = none) : 8 ≤ p.n := by
  obtain ⟨m, -, hm⟩ := exists_size_of_configError_none h
  obtain ⟨-, hbins⟩ := configError_none_bounds h
  have hpow : 2 ^ 2 < 2 ^ m := by omega
  have hexp : 2 < m := (Nat.pow_lt_pow_iff_right Nat.one_lt_two).mp hpow
  rw [hm]
  exact Nat.pow_le_pow_right Nat.two_pos hexp

end Sys2Proof.Machine
end

section
/-! Reset, startup and power-off (70_reset_and_hazards.md). -/

namespace Sys2Proof.Machine

open Sys2Proof.Block (stepWith_of_reset stepWith_of_powerOff emitted_of_powerOff afterStartup atCycle_afterStartup)

/-- Settles O7: after its first step either run is the one from the reset state. -/
theorem nothingSurvivesAReset : Obligations.NothingSurvivesAReset := by
  intro s u p r hs hu k
  exact ⟨(core_run_of_reset hs k).trans (core_run_of_reset hu k).symm, core_run_of_reset hs k⟩

/-- Settles O14: the premises are those of a cycle at element 0, and what the check tests. -/
theorem startupEstablishesItsPremises : Obligations.StartupEstablishesItsPremises := by
  intro p hp
  have hcfgchk : step (State.afterReset p []) = .next ((State.afterReset p []).setPhase .winit) :=
    (step_of_at rfl rfl).trans (exec_cfgchk_pass hp)
  have hwinit : step ((State.afterReset p []).setPhase .winit) =
      .next (((State.afterReset p []).setWin (windowTable (arithOf p.arith) p.n)).setPhase .xinit) :=
    (step_of_at rfl rfl).trans (exec_winit _)
  have hxinit : step (((State.afterReset p []).setWin (windowTable (arithOf p.arith) p.n)).setPhase .xinit) =
      .next (afterStartup numerics p) := (step_of_at rfl rfl).trans (exec_xinit _)
  obtain ⟨hphase, -, hplatform, hcursor, hwin, htw, hfault, -⟩ := atCycle_afterStartup (a := numerics) hp
  obtain ⟨hpow, hxf, hbands, -⟩ := (configError_eq_none_iff p).mp hp
  obtain ⟨hl, -⟩ := configError_none_bounds hp
  refine ⟨_, _, _, decode_encode .cfgchk, hcfgchk, decode_encode .winit, hwinit, decode_encode .xinit, hxinit,
    decode_eq_ok_iff.mpr hphase, hplatform, (isPow2_iff p.n).mp hpow, hxf, hbands, hl, eight_le_of_configError_none hp,
    ?_, fun i hi => ?_, htw, hcursor, hfault, rfl⟩
  · rw [hwin, windowTable_length]
  · rw [hwin]
    exact getElem?_windowTable _ hi

/-- Settles O6. -/
theorem resetWinsInEveryState : Obligations.ResetWinsInEveryState := by
  intro s p r hh
  exact ⟨State.afterReset p r, stepWith_of_reset hh, rfl, rfl, rfl, rfl, rfl, rfl, rfl, rfl⟩

/-- Settles O8. -/
theorem powerOffEndsTheObservation : Obligations.PowerOffEndsTheObservation :=
  fun _ _ hh => ⟨stepWith_of_powerOff hh, emitted_of_powerOff hh⟩

end Sys2Proof.Machine
end
